-- ==== Sys2Proof/Word.lean ====
section
/-! DEFINITION. The widths of the engine (`00_scope.md` rule R5): bytes, 32-bit lengths and addresses, 96-bit command
descriptors, 40-bit responses, 4-bit degree fields. -/

namespace Sys2Proof

/-- An image byte, a pixel byte or a payload symbol: `BYTE_W` = 8 (R5). -/
abbrev Byte := BitVec 8

/-- A length, count or index: `LEN_W` = 32 (R5). -/
abbrev Len := BitVec 32

/-- An address of one of the three buffer spaces: `LEN_W` = 32 (R5, R40). -/
abbrev Addr := BitVec 32

/-- A command descriptor: `CMD_W` = 96 (R5, R60). -/
abbrev Cmd := BitVec 96

/-- A response: `RSP_W` = 40 (R5, R67). -/
abbrev Rsp := BitVec 40

/-- A degree field as it stands in a descriptor: `DEG_W` = 4 (R5, R63). -/
abbrev DegField := BitVec 4

end Sys2Proof
end

