-- ==== Sys2Proof/Syntax.lean ====
section
/-! DEFINITION. The commands of the engine (`30_encoding.md` rules R62, R69), the reasons a descriptor is illegal (R65),
and the source lines of the assembler (R70). -/

namespace Sys2Proof

/-- The four commands, one constructor per row of the opcode map (R62). The operands are the descriptor's fields as R69
decodes them: the degree field may hold any of its sixteen values, legal or not (R63), and every length and count is
legal as an encoding (R64). -/
inductive Instr where
  /-- `MASKS d` (R85). -/
  | masks (deg : DegField)
  /-- `CAPACITY d, L` (R95). -/
  | capacity (deg : DegField) (len : Len)
  /-- `EMBED d, L, P` (R100). -/
  | embed (deg : DegField) (len cnt : Len)
  /-- `EXTRACT d, L, N` (R120). -/
  | extract (deg : DegField) (len cnt : Len)
  deriving DecidableEq, Repr

/-- Why a descriptor is illegal (R65): non-zero reserved bits, or a reserved opcode. -/
inductive Illegal where
  /-- `RSV != 0`, with the value found there. -/
  | reservedBits (rsv : BitVec 24)
  /-- `OP` is 0x0 or 0x5 to 0xF, with the value found there. -/
  | reservedOpcode (op : BitVec 4)
  deriving DecidableEq, Repr

/-- One source line of the assembler (R70). Its operands are numbers as written, so they may be too large to encode:
`AsmLine.check` of WellFormed.lean refuses those. -/
inductive AsmLine where
  /-- `MASKS d` -/
  | masks (d : Nat)
  /-- `CAPACITY d, L` -/
  | capacity (d len : Nat)
  /-- `EMBED d, L, P` -/
  | embed (d len cnt : Nat)
  /-- `EXTRACT d, L, N` -/
  | extract (d len cnt : Nat)
  /-- `.cmd 0x<24 hexadecimal digits>`: a raw descriptor, "the only way to write an illegal descriptor". -/
  | raw (w : Nat)
  deriving DecidableEq, Repr

end Sys2Proof
end

