-- ==== Sys2Proof/WellFormed.lean ====
section
/-! DEFINITION. Which source lines can be encoded (`30_encoding.md` rule R70). An `Instr` needs no check: its fields have
the widths of the descriptor's fields, and every value of every field is a legal encoding (R63, R64); the legality of the
degree is not a matter of encoding but the first check of execution (R69). -/

namespace Sys2Proof

/-- Why a source line cannot be encoded (R70). -/
inductive IllFormed where
  /-- the degree is above 15 -/
  | degreeTooLarge (d : Nat)
  /-- the image length is 2^32 or more -/
  | lengthTooLarge (len : Nat)
  /-- the payload length or symbol count is 2^32 or more -/
  | countTooLarge (cnt : Nat)
  /-- the raw descriptor is 2^96 or more -/
  | descriptorTooLarge (w : Nat)
  deriving DecidableEq, Repr

/-- The first operand of a line that cannot be encoded, if there is one: "`d` must be 0 to 15 and `L`, `P`, `N` 0 to
`2^32 - 1`, or the line cannot be encoded and is refused" (R70). -/
def AsmLine.check : AsmLine → Except IllFormed Unit
  | .masks d => if d < 16 then .ok () else .error (.degreeTooLarge d)
  | .capacity d len =>
    if 16 ≤ d then .error (.degreeTooLarge d)
    else if 2 ^ 32 ≤ len then .error (.lengthTooLarge len)
    else .ok ()
  | .embed d len cnt =>
    if 16 ≤ d then .error (.degreeTooLarge d)
    else if 2 ^ 32 ≤ len then .error (.lengthTooLarge len)
    else if 2 ^ 32 ≤ cnt then .error (.countTooLarge cnt)
    else .ok ()
  | .extract d len cnt =>
    if 16 ≤ d then .error (.degreeTooLarge d)
    else if 2 ^ 32 ≤ len then .error (.lengthTooLarge len)
    else if 2 ^ 32 ≤ cnt then .error (.countTooLarge cnt)
    else .ok ()
  | .raw w => if w < 2 ^ 96 then .ok () else .error (.descriptorTooLarge w)

end Sys2Proof
end

