-- ==== Sys2Proof/Decode.lean ====
section
/-! DEFINITION. The one command format `CMD96` (`30_encoding.md` rules R60, R61), the decoder (R69), the encoder, and the
opcode table's match and mask (R68). -/

namespace Sys2Proof

/-- Bits `[3:0]`, the opcode (R61). -/
def opField (cmd : Cmd) : BitVec 4 := cmd.extractLsb' 0 4

/-- Bits `[7:4]`, the degree (R61). -/
def degField (cmd : Cmd) : DegField := cmd.extractLsb' 4 4

/-- Bits `[31:8]`, reserved, must be zero (R61, R65). -/
def rsvField (cmd : Cmd) : BitVec 24 := cmd.extractLsb' 8 24

/-- Bits `[63:32]`, the image length (R61). -/
def lenField (cmd : Cmd) : Len := cmd.extractLsb' 32 32

/-- Bits `[95:64]`, the payload length or symbol count (R61). -/
def cntField (cmd : Cmd) : Len := cmd.extractLsb' 64 32

/-- The descriptor a host keeps as three 32-bit words, word 0 being bits `[31:0]` (R60). -/
def descriptorOfWords (w0 w1 w2 : BitVec 32) : Cmd := w2 ++ w1 ++ w0

/-- The decoder of R69: total, independent of the state, refusing an illegal descriptor by its reason (R65). -/
def decode (cmd : Cmd) : Except Illegal Instr :=
  if rsvField cmd ≠ 0 then .error (.reservedBits (rsvField cmd))
  else match opField cmd with
    | 0x1#4 => .ok (.masks (degField cmd))
    | 0x2#4 => .ok (.capacity (degField cmd) (lenField cmd))
    | 0x3#4 => .ok (.embed (degField cmd) (lenField cmd) (cntField cmd))
    | 0x4#4 => .ok (.extract (degField cmd) (lenField cmd) (cntField cmd))
    | op => .error (.reservedOpcode op)

/-- A descriptor with the given fields and `RSV` zero (R61, R70). -/
def descriptor (op : BitVec 4) (deg : DegField) (len cnt : Len) : Cmd :=
  cnt ++ len ++ 0#24 ++ deg ++ op

/-- The opcode of a command (R62). -/
def Instr.opcode : Instr → BitVec 4
  | .masks _ => 0x1#4
  | .capacity _ _ => 0x2#4
  | .embed _ _ _ => 0x3#4
  | .extract _ _ _ => 0x4#4

/-- The encoder: the descriptor of a command, unused fields and `RSV` zero (R61, R62, R70). -/
def encode (i : Instr) : Cmd :=
  match i with
  | .masks deg => descriptor i.opcode deg 0 0
  | .capacity deg len => descriptor i.opcode deg len 0
  | .embed deg len cnt => descriptor i.opcode deg len cnt
  | .extract deg len cnt => descriptor i.opcode deg len cnt

/-- The mask of every row of the opcode table: the `RSV` and `OP` bits (R68). -/
def rowMask : Cmd := 0x0000000000000000FFFFFF0F#96

/-- The match value of a command's row of the opcode table: its opcode, zero elsewhere (R68). -/
def rowMatch (i : Instr) : Cmd := i.opcode.setWidth 96

/-- The instruction the decoder reads from a table word `w` of `nbits` bits, every bit above `nbits` zero. A descriptor is
one value of 96 bits with no byte order (R60), so the word is the descriptor. -/
def decodeTableWord (nbits w : Nat) : Option Instr :=
  match decode (BitVec.ofNat 96 (w % 2 ^ nbits)) with
  | .ok i => some i
  | .error _ => none

end Sys2Proof
end

