-- ==== Sys2Proof/Config.lean ====
section
/-! DEFINITION. What the implementation fixes (`00_scope.md` rule R5) and the free values of the model. -/

namespace Sys2Proof.Config

/-- `HEADER_SIZE`: the count of leading image bytes never touched by embedding, a constant of the hardware (R5). -/
abbrev headerSize : Nat := 54

/-- A free value: what the `n`-th read of a byte that nobody has written returns. R56: "the read returns some byte,
not fixed by this spec and not required to be the same on a second read; a model makes it a free draw or a fault, never
zero." Nothing can be proved of it. DESIGN CHOICE, safe: notes/assumptions/4.md. -/
opaque unwrittenByte : Nat → Byte

/-- A free value: the level of `rsp_valid` in `PHASE = RESP` while `rst` is 1. R142 gives 1 there ("exactly when
`PHASE = RESP`") and R170 gives 0 ("During reset"), and 90_conflicts.md does not settle it (its C8 is about `cmd_ready`).
Nothing can be proved of it. DESIGN CHOICE, safe: notes/assumptions/8.md. -/
opaque rspValidUnderReset : Bool

end Sys2Proof.Config
end

