-- ==== Sys2Proof/Machine/State.lean ====
section
/-! DEFINITION. The state of the machine as plain data: the engine's registers and buffer spaces (`10_state.md` rules R10,
R22), the engine's input lines (`44_sequencing.md` rules R141, R142, `70_reset_and_hazards.md` rule R170), the host as the
second agent (`00_scope.md` rule R9, `44_sequencing.md` rule R144), the faults and refusals of a step, and reset. -/

namespace Sys2Proof.Machine

/-- `PHASE` (R10, R18): what the engine may do next. The fourth 2-bit value is never taken (R10, U15) and cannot be
written here. -/
inductive Phase where
  /-- `IDLE` (0): no command in flight. -/
  | idle
  /-- `RUN` (1): an EMBED or an EXTRACT is in flight. -/
  | run
  /-- `RESP` (2): a response waits in `RSP`. -/
  | resp
  deriving DecidableEq, Repr

/-- The three buffer spaces (R22, R40). -/
inductive Space where
  /-- `IMG`, the input image byte stream (R41). -/
  | img
  /-- `SYM`, the symbol buffer (R42). -/
  | sym
  /-- `OUT`, the output image byte stream (R43). -/
  | out
  deriving DecidableEq, Repr

/-- One buffer space: the bytes somebody has written, as (address, byte) cells in rising order of address. An unlisted
address holds no defined value (R56), so every byte value may be listed. -/
abbrev Memory := List Host.Cell

/-- The direction of a buffer transaction (R143). -/
inductive AccessKind where
  /-- `MemRead`: the port's read enable with the returned data. -/
  | read
  /-- `MemWrite`: the port's write enable with the data written. -/
  | write
  deriving DecidableEq, Repr

/-- One transaction on the port of a buffer space: which space, which direction, the address and the data (R143). -/
structure Access where
  space : Space
  kind : AccessKind
  addr : Addr
  data : Byte
  deriving DecidableEq, Repr

/-- The engine's input lines (R141, R142, R170), at the levels the host last drove them to. -/
structure Pins where
  /-- `rst`, active high (R170). -/
  rst : Bool
  /-- `cmd_valid` (R141). -/
  cmdValid : Bool
  /-- `cmd_data[95:0]` (R141). -/
  cmdData : Cmd
  /-- `rsp_ready` (R142). -/
  rspReady : Bool
  deriving DecidableEq, Repr

/-- The host's moves (R144). To issue a command, to take a response and to reset are `drive`; to wait is `edge`. -/
inductive HostMove where
  /-- Set the engine's input lines. -/
  | drive (p : Pins)
  /-- Write the byte `v` at address `a` of a space ("fill buffers"). -/
  | fill (sp : Space) (a : Addr) (v : Byte)
  /-- Read the byte at address `a` of a space ("read results"). -/
  | read (sp : Space) (a : Addr)
  /-- Provide the first `n` bytes of a space as storage (R55). -/
  | provide (sp : Space) (n : Nat)
  /-- Let the next rising edge of `clk` come ("wait"). -/
  | edge
  deriving DecidableEq, Repr

/-- How many bytes of storage, from address 0, the host has provided behind each space (R25 (c), R55). -/
structure Extents where
  img : Nat
  sym : Nat
  out : Nat
  deriving DecidableEq, Repr

/-- The host, as far as a run needs it. All of it is the model's own: notes/assumptions/1.md, 5.md, 6.md, 19.md. -/
structure HostSide where
  /-- The moves still to come, oldest first. -/
  script : List HostMove
  /-- The responses taken, oldest first (R140, R147). -/
  received : List Rsp
  /-- The bytes read, oldest first. -/
  seen : List Byte
  /-- The ownership window of R52 is open: an EMBED or EXTRACT was accepted and its handshake has not happened. -/
  lent : Bool
  /-- The storage behind the spaces. -/
  extents : Extents
  deriving DecidableEq, Repr

/-- The state of the machine. The first thirteen fields are the registers of R10, in its order; `img`, `sym`, `out` are the
spaces of R22; `pins` the input lines; `bus`, `draws` and `host` are the model's own (INVENTORY.md, heading State). -/
structure State where
  /-- `PHASE` (R18). -/
  phase : Phase
  /-- `OP`: opcode of the command in flight (R11). -/
  op : BitVec 4
  /-- `DEG`: degree of the command in flight (R11). -/
  deg : DegField
  /-- `LEN`: image length (R11). -/
  len : Len
  /-- `CNT`: payload length or symbol count (R11). -/
  cnt : Len
  /-- `TEXT_MASK` (R17). -/
  textMask : Byte
  /-- `IMG_MASK` (R17). -/
  imgMask : Byte
  /-- `CUR`: the byte cursor (R12). -/
  cur : Addr
  /-- `SIDX`: the symbol index (R13). -/
  sidx : Addr
  /-- `CHUNK`: chunks of the current symbol already processed (R14). -/
  chunk : BitVec 3
  /-- `SHR`: the symbol shift register of EMBED (R15). -/
  shr : Byte
  /-- `ACC`: the accumulator of EXTRACT (R16). -/
  acc : Byte
  /-- `RSP`: the response of the last finished command (R19, R67). -/
  rsp : Rsp
  /-- `IMG` (R41). -/
  img : Memory
  /-- `SYM` (R42). -/
  sym : Memory
  /-- `OUT` (R43). -/
  out : Memory
  /-- The engine's input lines (R141, R142, R170). -/
  pins : Pins
  /-- The buffer transactions of the latest step, in order (R49, R143). -/
  bus : List Access
  /-- How many free draws have been made (R56). -/
  draws : Nat
  /-- The host. -/
  host : HostSide
  deriving DecidableEq, Repr

/-- A machine fault: the machine is stuck. The engine itself has none: its errors are responses (R150), and it has no
bus-error input (R55). -/
inductive Fault where
  /-- Raised by the run step in a `PHASE = RUN` state that the spec calls unreachable and leaves without meaning: `OP` other
  than 3 or 4, an illegal `DEG`, `CHUNK >= STEPS(DEG)`, `SIDX > CNT` or `CUR > LEN` (93_implementation_defined.md U15, U4).
  Safe: "it must not give them a meaning a proof could use". -/
  | unreachableRun
  deriving DecidableEq, Repr

/-- A refusal: the run is outside the model. -/
inductive Refusal where
  /-- Raised by the dispatch for an instruction that has no meaning yet. Safe. -/
  | notModelled (mnemonic : String)
  /-- Raised by an access, the engine's or the host's, beyond the storage the host has provided for the space: "the host's
  premise is broken" (R55, U10). Safe. -/
  | outsideExtent (sp : Space)
  /-- Raised by a host move on a range the command in flight owns: "A model gives the host no move on those ranges inside
  the window" (R52, U11). Unsafe in one way: what such a host would do to the engine is outside every claim. -/
  | hostInWindow (sp : Space)
  deriving DecidableEq, Repr

/-- The extents at reset: the whole address space, 2^32 = 4294967296 bytes each. DESIGN CHOICE: notes/assumptions/5.md. -/
def Extents.whole : Extents := { img := 4294967296, sym := 4294967296, out := 4294967296 }

/-- The machine right after reset (R24, R171): `PHASE = IDLE`, every other register 0, nothing written in any space (R56).
The lines are quiet and the host has no move (DESIGN CHOICE: notes/assumptions/17.md). -/
def State.reset : State where
  phase := .idle
  op := 0
  deg := 0
  len := 0
  cnt := 0
  textMask := 0
  imgMask := 0
  cur := 0
  sidx := 0
  chunk := 0
  shr := 0
  acc := 0
  rsp := 0
  img := []
  sym := []
  out := []
  pins := { rst := false, cmdValid := false, cmdData := 0, rspReady := false }
  bus := []
  draws := 0
  host := { script := [], received := [], seen := [], lent := false, extents := .whole }

end Sys2Proof.Machine
end

