-- ==== Sys2Proof/Machine/Operands.lean ====
section
/-! DEFINITION. The operands of a command: the four legal degrees (`00_scope.md` rules R5, R6, `30_encoding.md` rule R63)
with their derived constants and masks (`40_masks.md` rules R80 to R83), and the capacity bound
(`41_capacity.md` rules R90 to R93). -/

namespace Sys2Proof.Machine

/-- A legal degree: the set `DEGREES` = 1, 2, 4, 8 (R5). -/
inductive Degree where
  | one
  | two
  | four
  | eight
  deriving DecidableEq, Repr

/-- The legal degree a degree field holds, if it holds one: `0b0001`, `0b0010`, `0b0100`, `0b1000` (R63). The other twelve
values decode without trouble and are refused by the first check of execution (R137). -/
def Degree.ofField (deg : DegField) : Option Degree :=
  match deg with
  | 0x1#4 => some .one
  | 0x2#4 => some .two
  | 0x4#4 => some .four
  | 0x8#4 => some .eight
  | _ => none

/-- The field value of a legal degree, which is the degree itself in binary (R63). -/
def Degree.field : Degree → DegField
  | .one => 0x1
  | .two => 0x2
  | .four => 0x4
  | .eight => 0x8

/-- The degree `d` as a number. -/
def Degree.bits : Degree → Nat
  | .one => 1
  | .two => 2
  | .four => 4
  | .eight => 8

/-- `STEPS(d) = 8 / d`, pixel bytes per symbol (R6). -/
def Degree.steps (d : Degree) : Nat := 8 / d.bits

/-- `SHAMT(d) = 8 - d` (R6). -/
def Degree.shamt (d : Degree) : Nat := 8 - d.bits

/-- `LOG2(d)` (R6). -/
def Degree.log2 : Degree → Nat
  | .one => 0
  | .two => 1
  | .four => 2
  | .eight => 3

/-- `text_mask(d)`, the mask generator's table (R83): the top `d` bits of a byte. Only legal degrees have a mask (R86). -/
def textMaskOf : Degree → Byte
  | .one => 0x80
  | .two => 0xC0
  | .four => 0xF0
  | .eight => 0xFF

/-- `img_mask(d)`, the mask generator's table (R83): all but the low `d` bits of a byte. -/
def imgMaskOf : Degree → Byte
  | .one => 0xFE
  | .two => 0xFC
  | .four => 0xF0
  | .eight => 0x00

/-- `ext_mask(d) = ~img_mask(d)`, complemented at 8 bits (R82). -/
def extMaskOf (d : Degree) : Byte := ~~~ imgMaskOf d

/-- `L * d` at 36 bits: `zext_36(L) << LOG2(d)` (R92). -/
def scaledLength (d : Degree) (len : Len) : BitVec 36 := len.setWidth 36 <<< d.log2

/-- `8 * (P + 54)` at 36 bits: `(zext_36(P) + 54) << 3` (R92). -/
def scaledCount (cnt : Len) : BitVec 36 := (cnt.setWidth 36 + BitVec.ofNat 36 Config.headerSize) <<< 3

/-- The capacity check: `8 * (P + 54) < L * d`, both sides at 36 bits, compared as unsigned numbers (R90 to R92). -/
def admissible (d : Degree) (len cnt : Len) : Bool := (scaledCount cnt).ult (scaledLength d len)

/-- `8 * HEADER_SIZE` = 432: the largest `L * d` that admits no count (R93, R95). -/
def noRoom : BitVec 36 := BitVec.ofNat 36 (8 * Config.headerSize)

/-- The largest admissible symbol count: nothing when `L * d <= 432`, else `((L * d - 1) div 8) - 54` (R93, R95, R96). -/
def capacityOf (d : Degree) (len : Len) : Option (BitVec 32) :=
  if scaledLength d len ≤ noRoom then none
  else some (((scaledLength d len - 1) / 8 - BitVec.ofNat 36 Config.headerSize).setWidth 32)

end Sys2Proof.Machine
end

