-- ==== Sys2Proof/Machine/Flags.lean ====
section
/-! DEFINITION. The engine's whole status: the response word `RSP40` (`30_encoding.md` rule R67). There are no condition
codes and no arithmetic flags (`10_state.md` rule R19). -/

namespace Sys2Proof.Machine

/-- The response codes (R67, R150). -/
inductive Code where
  /-- 0: success -/
  | ok
  /-- 1: the degree is not 1, 2, 4 or 8 (R152) -/
  | invalidDegree
  /-- 2: EMBED's capacity check failed (R153) -/
  | payloadTooLarge
  /-- 3: EXTRACT's capacity check failed (R154) -/
  | readTooLarge
  /-- 4: an illegal descriptor (R151) -/
  | invalidCommand
  deriving DecidableEq, Repr

/-- The number of a response code (R67). -/
def Code.number : Code → BitVec 4
  | .ok => 0
  | .invalidDegree => 1
  | .payloadTooLarge => 2
  | .readTooLarge => 3
  | .invalidCommand => 4

/-- The response `{value[31:0], 0b000, none, code[3:0]}` (R67, R139). -/
def responseWord (code : Code) (none : Bool) (value : BitVec 32) : Rsp :=
  value ++ 0#3 ++ BitVec.ofBool none ++ code.number

/-- `CODE`, bits `[3:0]` of a response (R67). -/
def codeField (r : Rsp) : BitVec 4 := r.extractLsb' 0 4

/-- `NONE`, bit 4 of a response (R67). -/
def noneFlag (r : Rsp) : Bool := r.getLsbD 4

/-- Bits `[7:5]` of a response, always 0 (R67). -/
def zeroField (r : Rsp) : BitVec 3 := r.extractLsb' 5 3

/-- `VALUE`, bits `[39:8]` of a response (R67). -/
def valueField (r : Rsp) : BitVec 32 := r.extractLsb' 8 32

/-- The `VALUE` of a MASKS: `{0x00, ext_mask, img_mask, text_mask}` (R67, R85). -/
def masksValue (d : Degree) : BitVec 32 := 0#8 ++ extMaskOf d ++ imgMaskOf d ++ textMaskOf d

/-- The `VALUE` of a successful EMBED or EXTRACT: `CNT * STEPS(DEG)`, the number of carrier bytes (R67, R106, R124). -/
def carrierCount (d : Degree) (cnt : Len) : BitVec 32 := cnt * BitVec.ofNat 32 d.steps

end Sys2Proof.Machine
end

