-- ==== Sys2Proof/Machine/Ops.lean ====
section
/-! DEFINITION. The named operations over memory and registers: `MemRead` and `MemWrite` (`20_memory.md` rules R47, R55,
R56), `respond` and the error entry (`44_sequencing.md` rule R139, `60_exceptions.md` rule R156), the response handshake
(rule R140), reset (`70_reset_and_hazards.md` rules R171, R172), and the step over one chunk that both transforms share. -/

namespace Sys2Proof.Machine

/-- The 2-bit number of a phase (R10, R18). -/
def Phase.number : Phase → BitVec 2
  | .idle => 0
  | .run => 1
  | .resp => 2

/-- The byte last written at an address, if there is one (R47, R56). -/
def Memory.read : Memory → Nat → Option Byte
  | [], _ => none
  | (b, w) :: m, a => if a = b then some w else Memory.read m a

/-- Store a byte at an address, keeping the cells in rising order of address (R47). -/
def Memory.write : Memory → Nat → Byte → Memory
  | [], a, v => [(a, v)]
  | (b, w) :: m, a, v =>
    if a < b then (a, v) :: (b, w) :: m
    else if a = b then (a, v) :: m
    else (b, w) :: Memory.write m a v

/-- Every address of the list is at least `lo`, rising strictly, and below 2^32 (R40). -/
def Memory.wfFrom : Nat → Memory → Bool
  | _, [] => true
  | lo, (b, _) :: m => decide (lo ≤ b) && decide (b < 2 ^ 32) && Memory.wfFrom (b + 1) m

/-- The canonical form of a space: addresses strictly rising and inside the 32-bit space (R40). An unlisted address reads
as nothing defined (R56), so no cell is superfluous. -/
def Memory.wf (m : Memory) : Bool := Memory.wfFrom 0 m

/-- The contents of a space. -/
def State.space (s : State) : Space → Memory
  | .img => s.img
  | .sym => s.sym
  | .out => s.out

/-- Replace the contents of a space. -/
def State.setSpace (s : State) (sp : Space) (m : Memory) : State :=
  match sp with
  | .img => { s with img := m }
  | .sym => { s with sym := m }
  | .out => { s with out := m }

/-- The storage the host has provided behind a space (R55). -/
def Extents.of (e : Extents) : Space → Nat
  | .img => e.img
  | .sym => e.sym
  | .out => e.out

/-- Change the storage behind one space. -/
def Extents.update (e : Extents) (sp : Space) (n : Nat) : Extents :=
  match sp with
  | .img => { e with img := n }
  | .sym => { e with sym := n }
  | .out => { e with out := n }

/-- There is storage behind this address (R55). -/
def State.inExtent (s : State) (sp : Space) (a : Addr) : Bool := decide (a.toNat < s.host.extents.of sp)

/-- The model's read of one byte: the byte of a space at address `i`, if anybody has written it (R47, R56). -/
def State.byteAt (s : State) (sp : Space) (i : Nat) : Option Byte := Memory.read (s.space sp) i

/-- The value a read returns, and the state it leaves: the byte last written, or a free draw, fresh at every read (R47,
R56). -/
def State.draw (s : State) (sp : Space) (a : Addr) : Byte × State :=
  match s.byteAt sp a.toNat with
  | some v => (v, s)
  | none => (Config.unwrittenByte s.draws, { s with draws := s.draws + 1 })

/-- Show a transaction on the buffer ports (R143). -/
def State.onBus (s : State) (x : Access) : State := { s with bus := s.bus ++ [x] }

/-- `MemRead(S, a, 1)` (R7, R47): one byte, no side effect on the space; refused beyond the storage the host has provided
(R55). -/
def memRead (sp : Space) (a : Addr) (s : State) : Except Refusal (Byte × State) :=
  if s.inExtent sp a then
    .ok ((s.draw sp a).1, (s.draw sp a).2.onBus ⟨sp, .read, a, (s.draw sp a).1⟩)
  else .error (.outsideExtent sp)

/-- `MemWrite(S, a, 1, v)` (R7, R47): one byte, no effect but to store it; refused beyond the storage the host has provided
(R55). -/
def memWrite (sp : Space) (a : Addr) (v : Byte) (s : State) : Except Refusal State :=
  if s.inExtent sp a then
    .ok ((s.setSpace sp (Memory.write (s.space sp) a.toNat v)).onBus ⟨sp, .write, a, v⟩)
  else .error (.outsideExtent sp)

/-- The outcome of a step that makes accesses. -/
def outcomeOf : Except Refusal State → Host.Outcome State Fault Refusal
  | .ok s => .next s
  | .error r => .refused r

/-- `respond(code, none, value)`: `RSP` takes the response and `PHASE` becomes `RESP` (R139). The only writer of `RSP`
beside reset. -/
def respond (code : Code) (none : Bool) (value : BitVec 32) (s : State) : State :=
  { s with rsp := responseWord code none value, phase := .resp }

/-- Error entry, the engine's only form of taking an exception: the response with `VALUE` and `NONE` zero, and nothing
else (R150, R156). -/
def raiseError (code : Code) (s : State) : State := respond code false 0 s

/-- The response handshake, the engine's only form of return, after an error as after a success: the host receives `RSP`
and `PHASE` becomes `IDLE`; the ownership window closes (R52, R140, R158). -/
def takeResponse (s : State) : State :=
  { s with
    phase := .idle
    host := { s.host with received := s.host.received ++ [s.rsp], lent := false } }

/-- Reset (R24, R171, R172): `PHASE = IDLE`, every other register 0; a command in flight is abandoned and a pending
response lost; the spaces keep what they hold. -/
def resetEngine (s : State) : State :=
  { s with
    phase := .idle
    op := 0
    deg := 0
    len := 0
    cnt := 0
    textMask := 0
    imgMask := 0
    cur := 0
    sidx := 0
    chunk := 0
    shr := 0
    acc := 0
    rsp := 0
    host := { s.host with lent := false } }

/-- The registers every start of a run loads, for a command of opcode `op` whose cursor starts at `cur0`, and the opening
of the ownership window (R11, R17, R52, R102, R122). -/
def startRun (op : BitVec 4) (d : Degree) (len cnt : Len) (cur0 : Addr) (s : State) : State :=
  { s with
    op := op
    deg := d.field
    len := len
    cnt := cnt
    textMask := textMaskOf d
    imgMask := imgMaskOf d
    cur := cur0
    sidx := 0
    chunk := 0
    phase := .run
    host := { s.host with lent := true } }

/-- The chunk in progress is the last one of its symbol: `CHUNK = STEPS(DEG) - 1` (R104, R123). -/
def State.lastChunk (s : State) (d : Degree) : Bool := decide (s.chunk.toNat + 1 = d.steps)

/-- After a chunk: `CHUNK <- 0; SIDX <- SIDX + 1` if it finished a symbol, else `CHUNK <- CHUNK + 1` (R13, R14, R104,
R123). -/
def advanceChunk (d : Degree) (s : State) : State :=
  if s.lastChunk d then { s with chunk := 0, sidx := s.sidx + 1 }
  else { s with chunk := s.chunk + 1 }

/-- Completion: `respond(OK, 0, CNT * STEPS(DEG))`, no memory touched (R106, R124). -/
def completeRun (d : Degree) (s : State) : State := respond .ok false (carrierCount d s.cnt) s

end Sys2Proof.Machine
end

