-- ==== Sys2Proof/Machine/Capacity.lean ====
section
/-! DEFINITION. CAPACITY (`41_capacity.md` rules R95, R96). -/

namespace Sys2Proof.Machine

/-- CAPACITY, whole within the accept step (R95): the largest admissible symbol count, or `NONE = 1` with `VALUE = 0` when no
count is admissible (R96), or `InvalidDegree`. -/
def execCapacity (deg : DegField) (len : Len) (s : State) : Host.Outcome State Fault Refusal :=
  match Degree.ofField deg with
  | none => .next (raiseError .invalidDegree s)
  | some d =>
    match capacityOf d len with
    | none => .next (respond .ok true 0 s)
    | some p => .next (respond .ok false p s)

end Sys2Proof.Machine
end

