-- ==== Sys2Proof/Machine/Embed.lean ====
section
/-! DEFINITION. EMBED, the pack engine (`42_embed.md` rules R100 to R106): the accept step with its two checks, and the four
run steps. -/

namespace Sys2Proof.Machine

/-- EMBED's accept step (R101, R102): the degree check, the capacity check, then the start of the run with `CUR = 0`. The
copying itself is the run steps below, one clock edge each (R135, R138). -/
def execEmbed (deg : DegField) (len cnt : Len) (s : State) : Host.Outcome State Fault Refusal :=
  match Degree.ofField deg with
  | none => .next (raiseError .invalidDegree s)
  | some d =>
    if admissible d len cnt then .next (startRun 0x3 d len cnt 0 s)
    else .next (raiseError .payloadTooLarge s)

/-- Copy one byte from `IMG` to `OUT` at the cursor, then move the cursor on. -/
def copyByte (s : State) : Except Refusal State := do
  let (px, s1) ← memRead .img s.cur s
  let s2 ← memWrite .out s.cur px s1
  return { s2 with cur := s.cur + 1 }

/-- Header copy step (R103). -/
def embedHeaderStep (s : State) : Except Refusal State := copyByte s

/-- The symbol a body step works on and the state after fetching it: from `SYM` at the first chunk, else from `SHR` (R15,
R104). -/
def embedSymbol (s : State) : Except Refusal (Byte × State) :=
  if s.chunk = 0 then memRead .sym s.sidx s else .ok (s.shr, s)

/-- Body step: one chunk of the symbol into the low bits of one pixel byte (R104). The symbol is fetched before the pixel
byte, which is read before `OUT` is written (R49). -/
def embedBodyStep (d : Degree) (s : State) : Except Refusal State := do
  let (sv, s1) ← embedSymbol s
  let bits := (sv &&& s.textMask) >>> d.shamt
  let (px, s2) ← memRead .img s.cur s1
  let s3 ← memWrite .out s.cur ((px &&& s.imgMask) ||| bits) s2
  return advanceChunk d { s3 with shr := sv <<< d.bits, cur := s.cur + 1 }

/-- Tail copy step (R105). -/
def embedTailStep (s : State) : Except Refusal State := copyByte s

/-- Completion step (R106). -/
def embedCompletionStep (d : Degree) (s : State) : Except Refusal State := .ok (completeRun d s)

/-- EMBED's run step, chosen by `CUR`, `SIDX`, `CNT` and `LEN` (R138). -/
def embedRunStep (d : Degree) (s : State) : Except Refusal State :=
  if s.cur.toNat < Config.headerSize then embedHeaderStep s
  else if s.sidx < s.cnt then embedBodyStep d s
  else if s.cur < s.len then embedTailStep s
  else embedCompletionStep d s

end Sys2Proof.Machine
end

