-- ==== Sys2Proof/Machine/Extract.lean ====
section
/-! DEFINITION. EXTRACT, the unpack engine (`43_extract.md` rules R120 to R124): the accept step with its two checks, and the
two run steps. -/

namespace Sys2Proof.Machine

/-- EXTRACT's accept step (R121, R122): the degree check, the capacity check, then the start of the run with `CUR = 54` and
`ACC = 0x00`. The reading itself is the run steps below, one clock edge each (R135, R138). -/
def execExtract (deg : DegField) (len cnt : Len) (s : State) : Host.Outcome State Fault Refusal :=
  match Degree.ofField deg with
  | none => .next (raiseError .invalidDegree s)
  | some d =>
    if admissible d len cnt then
      .next { startRun 0x4 d len cnt (BitVec.ofNat 32 Config.headerSize) s with acc := 0 }
    else .next (raiseError .readTooLarge s)

/-- The accumulator after taking in a pixel byte: `((ACC << DEG)[7:0]) | (px & ~IMG_MASK)` (R16, R123). -/
def accumulate (d : Degree) (s : State) (px : Byte) : Byte := (s.acc <<< d.bits) ||| (px &&& ~~~ s.imgMask)

/-- Body step: one pixel byte into the accumulator; the last chunk of a symbol writes the symbol to `SYM` and clears the
accumulator (R123). -/
def extractBodyStep (d : Degree) (s : State) : Except Refusal State := do
  let (px, s1) ← memRead .img s.cur s
  let a := accumulate d s px
  if s.lastChunk d then
    let s2 ← memWrite .sym s.sidx a s1
    return advanceChunk d { s2 with acc := 0, cur := s.cur + 1 }
  else
    return advanceChunk d { s1 with acc := a, cur := s.cur + 1 }

/-- Completion step (R124). -/
def extractCompletionStep (d : Degree) (s : State) : Except Refusal State := .ok (completeRun d s)

/-- EXTRACT's run step, chosen by `SIDX` and `CNT` (R138). `LEN` plays no part in the run (R120). -/
def extractRunStep (d : Degree) (s : State) : Except Refusal State :=
  if s.sidx < s.cnt then extractBodyStep d s
  else extractCompletionStep d s

end Sys2Proof.Machine
end

