-- ==== Sys2Proof/Machine/Masks.lean ====
section
/-! DEFINITION. MASKS (`40_masks.md` rules R85, R86). -/

namespace Sys2Proof.Machine

/-- MASKS, whole within the accept step (R85): the masks of a legal degree, or `InvalidDegree` (R86). -/
def execMasks (deg : DegField) (s : State) : Host.Outcome State Fault Refusal :=
  match Degree.ofField deg with
  | none => .next (raiseError .invalidDegree s)
  | some d => .next (respond .ok false (masksValue d) s)

end Sys2Proof.Machine
end

