-- ==== Sys2Proof/Machine/Dispatch.lean ====
section
/-! DEFINITION. The meaning of every command: what its accept step does (`44_sequencing.md` rule R137). -/

namespace Sys2Proof.Machine

/-- What the accept step of a decoded command does (R137). Whether the engine accepts at all is the accept step's condition,
`acceptStep` of Machine/Sequencing.lean (R136). -/
def exec (i : Instr) (s : State) : Host.Outcome State Fault Refusal :=
  match i with
  | .masks deg => Sys2Proof.Machine.execMasks deg s
  | .capacity deg len => Sys2Proof.Machine.execCapacity deg len s
  | .embed deg len cnt => Sys2Proof.Machine.execEmbed deg len cnt s
  | .extract deg len cnt => Sys2Proof.Machine.execExtract deg len cnt s

end Sys2Proof.Machine
end

