-- ==== Sys2Proof/Machine/Ports.lean ====
section
/-! DEFINITION. What the engine shows on its output lines (`44_sequencing.md` rules R141 to R143, `10_state.md` rule R20), and
the ranges of the ownership window (`20_memory.md` rules R48, R52). -/

namespace Sys2Proof.Machine

/-- `BUSY`: the name for `PHASE != IDLE` (R20). -/
def busy (s : State) : Bool := s.phase != .idle

/-- `cmd_ready`: exactly when `PHASE = IDLE` and `rst = 0` (R20, R141, R170; 90_conflicts.md C8). -/
def cmdReady (s : State) : Bool := s.phase == .idle && !s.pins.rst

/-- `rsp_valid`: `PHASE = RESP` (R142). In the reset state `PHASE` is not `RESP`, so it is 0 there (R170); in `RESP` with
`rst` already raised R142 and R170 differ, and the level is a free value (DESIGN CHOICE: notes/assumptions/8.md). -/
def rspValid (s : State) : Bool := s.phase == .resp && (!s.pins.rst || Config.rspValidUnderReset)

/-- `rsp_data`: `RSP` while `rsp_valid`, else not defined and not shown (R142, U14). -/
def rspData (s : State) : Option Rsp := if rspValid s then some s.rsp else none

/-- The host takes the response at a rising edge: `rsp_valid` and `rsp_ready` are both 1 (R142). -/
def rspTaken (s : State) : Bool := rspValid s && s.pins.rspReady

/-- The transactions of the latest step on the port of one space, in order (R143). -/
def portActivity (s : State) (sp : Space) : List Access := s.bus.filter (fun x => x.space == sp)

/-- The ranges a command of opcode `op` reads or writes (R48): all of `IMG[0 .. L-1]`, `SYM[0 .. P-1]`, `OUT[0 .. L-1]` for
EMBED; `IMG[54 .. 54 + N*S - 1]` and `SYM[0 .. N-1]` for EXTRACT. -/
def inCommandRange (op : BitVec 4) (d : Degree) (len cnt : Len) (sp : Space) (a : Addr) : Bool :=
  if op = 0x3 then
    match sp with
    | .img => decide (a < len)
    | .sym => decide (a < cnt)
    | .out => decide (a < len)
  else if op = 0x4 then
    match sp with
    | .img => decide (Config.headerSize ≤ a.toNat) && decide (a.toNat < Config.headerSize + cnt.toNat * d.steps)
    | .sym => decide (a < cnt)
    | .out => false
  else false

/-- The engine owns this address now: the window is open and the address is in the ranges of the command in flight (R52). -/
def engineOwns (s : State) (sp : Space) (a : Addr) : Bool :=
  s.host.lent &&
    match Degree.ofField s.deg with
    | some d => inCommandRange s.op d s.len s.cnt sp a
    | none => false

end Sys2Proof.Machine
end

