-- ==== Sys2Proof/Machine/Sequencing.lean ====
section
/-! DEFINITION. The step relation (`44_sequencing.md` rules R135 to R140): the accept step, the run step, the response
handshake and reset at a clock edge, and the host's moves between edges (rule R144). -/

namespace Sys2Proof.Machine

/-- Accept step (R136, R137): decode the descriptor once and dispatch; an illegal one is answered `InvalidCommand` (R65,
R151). -/
def acceptStep (cmd : Cmd) (s : State) : Host.Outcome State Fault Refusal :=
  match decode cmd with
  | .error _ => .next (raiseError .invalidCommand s)
  | .ok i => exec i s

/-- The working registers are as the rules leave them in a run: none of the cases `CHUNK >= STEPS(DEG)`, `SIDX > CNT`,
`CUR > LEN` that 93_implementation_defined.md U15 calls unreachable. -/
def runRegistersInRange (d : Degree) (s : State) : Bool :=
  decide (s.chunk.toNat < d.steps) && decide (s.sidx ≤ s.cnt) && decide (s.cur ≤ s.len)

/-- Run step (R138): EMBED's or EXTRACT's, by `OP`. The states the spec leaves without meaning are stuck (U15, U4). -/
def runStep (s : State) : Host.Outcome State Fault Refusal :=
  match Degree.ofField s.deg with
  | none => .fault .unreachableRun
  | some d =>
    if runRegistersInRange d s then
      if s.op = 0x3 then outcomeOf (embedRunStep d s)
      else if s.op = 0x4 then outcomeOf (extractRunStep d s)
      else .fault .unreachableRun
    else .fault .unreachableRun

/-- A rising edge with `rst` at 1: the reset state (R170, R171). A response that waits is lost (R172), unless both lines of
the response port are 1 at this very edge, when the host has received it (R142; notes/assumptions/8.md). -/
def resetEdge (s : State) : State := resetEngine (if rspTaken s then takeResponse s else s)

/-- A rising edge of `clk`: reset while `rst` is 1 (R170); else the step of the phase (R135), which in `IDLE` needs a
descriptor on the command port (R141) and in `RESP` needs the host to take the response (R142). Where there is no such step
the edge changes nothing (DEDUCED: notes/assumptions/3.md). -/
def clockEdge (s : State) : Host.Outcome State Fault Refusal :=
  if s.pins.rst then .next (resetEdge s)
  else match s.phase with
    | .idle => if s.pins.cmdValid then acceptStep s.pins.cmdData s else .next s
    | .run => runStep s
    | .resp => if rspTaken s then .next (takeResponse s) else .next s

/-- The host writes a byte (R144), where it owns the address and has storage (R52, R55). -/
def hostFill (sp : Space) (a : Addr) (v : Byte) (s : State) : Host.Outcome State Fault Refusal :=
  if engineOwns s sp a then .refused (.hostInWindow sp)
  else if s.inExtent sp a then .next (s.setSpace sp (Memory.write (s.space sp) a.toNat v))
  else .refused (.outsideExtent sp)

/-- The host reads a byte (R144), where it owns the address and has storage (R52, R55). A byte nobody has written is a free
draw (R56). -/
def hostRead (sp : Space) (a : Addr) (s : State) : Host.Outcome State Fault Refusal :=
  if engineOwns s sp a then .refused (.hostInWindow sp)
  else if s.inExtent sp a then
    .next { (s.draw sp a).2 with host := { s.host with seen := s.host.seen ++ [(s.draw sp a).1] } }
  else .refused (.outsideExtent sp)

/-- The host provides storage for a space (R55), outside the ownership window. -/
def hostProvide (sp : Space) (n : Nat) (s : State) : Host.Outcome State Fault Refusal :=
  if s.host.lent then .refused (.hostInWindow sp)
  else .next { s with host := { s.host with extents := s.host.extents.update sp n } }

/-- One move of the host (R144). Waiting for an edge is the move that lets the engine step. -/
def hostMove (m : HostMove) (s : State) : Host.Outcome State Fault Refusal :=
  match m with
  | .drive p => .next { s with pins := p }
  | .fill sp a v => hostFill sp a v s
  | .read sp a => hostRead sp a s
  | .provide sp n => hostProvide sp n s
  | .edge => clockEdge s

/-- The state a step begins with: the ports quiet, and the given moves left to the host. -/
def State.begin (s : State) (rest : List HostMove) : State :=
  { s with bus := [], host := { s.host with script := rest } }

/-- One step of the whole machine: the host's next move, or the next clock edge when the host has no move left. -/
def advance (s : State) : Host.Outcome State Fault Refusal :=
  match s.host.script with
  | [] => clockEdge (s.begin [])
  | m :: rest => hostMove m (s.begin rest)

/-- Present the descriptor `cmd` so that the very next step accepts it: the engine in `IDLE`, `rst` low, the descriptor on
the command port, and a clock edge as the next thing to happen. -/
def State.presenting (s : State) (cmd : Cmd) : State :=
  { s with
    phase := .idle
    pins := { s.pins with rst := false, cmdValid := true, cmdData := cmd }
    host := { s.host with script := if s.host.script = [] then [] else .edge :: s.host.script } }

end Sys2Proof.Machine
end

