-- ==== Sys2Proof/Machine/Step.lean ====
section
/-! DEFINITION. The step of the machine (`44_sequencing.md` rule R135) and the placing of a descriptor where the next step
takes it. -/

namespace Sys2Proof.Machine

/-- One step: a move of the host or a clock edge of the engine (R135, R144). -/
def step (s : State) : Host.Outcome State Fault Refusal := advance s

/-- `s` with the descriptor `w` (of `nbits` bits, zero above) on the command port of an engine that takes it at the next
step (R53, R136; notes/assumptions/2.md). -/
def State.withFetchWord (s : State) (nbits w : Nat) : State :=
  s.presenting (BitVec.ofNat 96 (w % 2 ^ nbits))

end Sys2Proof.Machine
end

