-- ==== Sys2Proof/Machine/Assembler.lean ====
section
/-! DEFINITION. The assembler (`30_encoding.md` rule R70): a line of source text to a descriptor. What R70 leaves open about
the text (blanks, the case of hexadecimal digits, empty lines) is DESIGN CHOICE: notes/assumptions/15.md. -/

namespace Sys2Proof.Machine

/-- Why a line of text is refused. -/
inductive AsmError where
  /-- the line has not the form of R70 -/
  | syntaxError
  /-- the line has the form but an operand does not fit its field -/
  | illFormed (r : IllFormed)
  deriving DecidableEq, Repr

/-- The descriptor of a source line whose operands fit: `d` to `DEG`, `L` to `LEN`, `P` or `N` to `CNT`, unused fields and
`RSV` zero (R70). -/
def descriptorOfLine : AsmLine → Cmd
  | .masks d => encode (.masks (BitVec.ofNat 4 d))
  | .capacity d len => encode (.capacity (BitVec.ofNat 4 d) (BitVec.ofNat 32 len))
  | .embed d len cnt => encode (.embed (BitVec.ofNat 4 d) (BitVec.ofNat 32 len) (BitVec.ofNat 32 cnt))
  | .extract d len cnt => encode (.extract (BitVec.ofNat 4 d) (BitVec.ofNat 32 len) (BitVec.ofNat 32 cnt))
  | .raw w => BitVec.ofNat 96 w

/-- Encode a source line, refusing what cannot be encoded (R70). -/
def assembleLine (l : AsmLine) : Except IllFormed Cmd :=
  match l.check with
  | .ok _ => .ok (descriptorOfLine l)
  | .error r => .error r

/-- A blank between the parts of a line. -/
def isBlank (c : Char) : Bool := c = ' ' || c = '\t' || c = '\r'

/-- Drop blanks at both ends. -/
def trimBlanks (cs : List Char) : List Char := ((cs.dropWhile isBlank).reverse.dropWhile isBlank).reverse

/-- "a `;` starts a comment that runs to the end of the line" (R70). -/
def dropComment (cs : List Char) : List Char := cs.takeWhile (· ≠ ';')

/-- The value of a digit: its place, from 0, in the row of the digits of a base. -/
def placeOf (c : Char) : List Char → Option Nat
  | [] => none
  | d :: row => if c = d then some 0 else (placeOf c row).map Nat.succ

/-- The digits a "decimal" literal is written with (R70). -/
def decimalDigit (c : Char) : Option Nat := placeOf c "0123456789".toList

/-- The digits a "`0x` hexadecimal" literal is written with (R70). R70 and its examples write them in upper case; lower case
is DESIGN CHOICE: notes/assumptions/15.md. -/
def hexDigit (c : Char) : Option Nat :=
  (placeOf c "0123456789ABCDEF".toList).or (placeOf c "0123456789abcdef".toList)

/-- The number that digits write after those already read, `acc`. -/
def digitsFrom (base : Nat) (digit : Char → Option Nat) : Nat → List Char → Option Nat
  | acc, [] => some acc
  | acc, c :: cs =>
    match digit c with
    | some v => digitsFrom base digit (acc * base + v) cs
    | none => none

/-- A non-negative integer literal, "decimal or `0x` hexadecimal" (R70). -/
def literal : List Char → Option Nat
  | [] => none
  | '0' :: 'x' :: [] => none
  | '0' :: 'x' :: c :: cs => digitsFrom 16 hexDigit 0 (c :: cs)
  | c :: cs => digitsFrom 10 decimalDigit 0 (c :: cs)

/-- Cut at commas. -/
def splitCommas : List Char → List (List Char)
  | [] => [[]]
  | c :: cs =>
    match splitCommas cs with
    | [] => [[c]]
    | w :: ws => if c = ',' then [] :: w :: ws else (c :: w) :: ws

/-- The operands after a mnemonic, comma by comma. -/
def operands (cs : List Char) : Option (List Nat) :=
  (splitCommas cs).mapM (fun w => literal (trimBlanks w))

/-- The source line of a mnemonic and the text after it (R70). A `.cmd` takes `0x` and exactly 24 hexadecimal digits. -/
def lineOf (mnemonic rest : List Char) : Option AsmLine :=
  if mnemonic = ".cmd".toList then
    match rest with
    | '0' :: 'x' :: ds =>
      if ds.length = 24 then (digitsFrom 16 hexDigit 0 ds).map AsmLine.raw else none
    | _ => none
  else if mnemonic = "MASKS".toList then
    match operands rest with
    | some [d] => some (.masks d)
    | _ => none
  else if mnemonic = "CAPACITY".toList then
    match operands rest with
    | some [d, len] => some (.capacity d len)
    | _ => none
  else if mnemonic = "EMBED".toList then
    match operands rest with
    | some [d, len, cnt] => some (.embed d len cnt)
    | _ => none
  else if mnemonic = "EXTRACT".toList then
    match operands rest with
    | some [d, len, cnt] => some (.extract d len cnt)
    | _ => none
  else none

/-- Assemble one line of text: `none` for a line with nothing but blanks and a comment, else its descriptor (R70). -/
def assembleText (text : List Char) : Except AsmError (Option Cmd) :=
  let cs := trimBlanks (dropComment text)
  if cs = [] then .ok none
  else
    match lineOf (cs.takeWhile (fun c => !isBlank c)) (trimBlanks (cs.dropWhile (fun c => !isBlank c))) with
    | none => .error .syntaxError
    | some l =>
      match assembleLine l with
      | .ok cmd => .ok (some cmd)
      | .error r => .error (.illFormed r)

/-- Assemble a program, "one command per line" (R70), to the descriptors in their order. -/
def assembleProgram : List (List Char) → Except AsmError (List Cmd)
  | [] => .ok []
  | line :: lines =>
    match assembleText line, assembleProgram lines with
    | .error r, _ => .error r
    | .ok _, .error r => .error r
    | .ok none, .ok cmds => .ok cmds
    | .ok (some cmd), .ok cmds => .ok (cmd :: cmds)

end Sys2Proof.Machine
end

