-- ==== Sys2Proof/Safety.lean ====
section
/-! DEFINITION. What claims about runs speak of: runs of several steps and their buffer traffic, a command on the port of a
waiting engine, the invariants of the machine, and the closed forms of the two transforms (`42_embed.md` rule R107,
`43_extract.md` rule R125). -/

namespace Sys2Proof.Machine

/-- `n` steps in a row, stopping at the first that gives no next state. -/
def stepN : Nat → State → Host.Outcome State Fault Refusal
  | 0, s => .next s
  | n + 1, s =>
    match step s with
    | .next t => stepN n t
    | .fault f => .fault f
    | .refused r => .refused r

/-- The buffer transactions of `n` steps in a row, in order (R49, R143). -/
def traffic : Nat → State → List Access
  | 0, _ => []
  | n + 1, s =>
    match step s with
    | .next t => t.bus ++ traffic n t
    | .fault _ => []
    | .refused _ => []

/-- A transaction without its data: which space, which direction, which address (R48, R49). -/
def Access.place (x : Access) : Space × AccessKind × Nat := (x.space, x.kind, x.addr.toNat)

/-- The engine is in `IDLE` with `rst` low and `cmd` on its command port, and the host makes no further move: clock edges
follow (R136, R141). -/
def Presents (s : State) (cmd : Cmd) : Prop :=
  s.phase = .idle ∧ s.pins.rst = false ∧ s.pins.cmdValid = true ∧ s.pins.cmdData = cmd ∧ s.host.script = []

/-- The next step of the machine is a clock edge, after which the moves `rest` are left: the host waits or has no move left. -/
def EdgeNext (s : State) (rest : List HostMove) : Prop :=
  s.host.script = .edge :: rest ∨ (s.host.script = [] ∧ rest = [])

/-- The next step is a clock edge that finds the engine in a run at degree `d`, `rst` low, with `CHUNK`, `SIDX` and `CUR` in
the ranges the rules keep them in (R12 to R14, R135, R138; the other cases are 93_implementation_defined.md U15). -/
def Running (s : State) (rest : List HostMove) (d : Degree) : Prop :=
  EdgeNext s rest ∧ s.pins.rst = false ∧ s.phase = .run ∧ Degree.ofField s.deg = some d ∧
  s.chunk.toNat < d.steps ∧ s.sidx ≤ s.cnt ∧ s.cur ≤ s.len

/-- The host has provided storage for the first `n` bytes of a space (R55). -/
def Provides (s : State) (sp : Space) (n : Nat) : Prop := n ≤ s.host.extents.of sp

/-- Somebody has written every byte of the first `n` bytes of a space from address `lo` (R56, R173, R174). -/
def WrittenFrom (s : State) (sp : Space) (lo n : Nat) : Prop := ∀ i, i < n → lo ≤ i → (s.byteAt sp i).isSome = true

/-- The storage R173 asks of the host for `EMBED d, L, P` (R55, R173). -/
def EmbedStorage (s : State) (len cnt : Len) : Prop :=
  Provides s .img len.toNat ∧ Provides s .sym cnt.toNat ∧ Provides s .out len.toNat

/-- The storage R174 asks of the host for `EXTRACT d, L, N` (R55, R174). -/
def ExtractStorage (s : State) (d : Degree) (cnt : Len) : Prop :=
  Provides s .img (Config.headerSize + cnt.toNat * d.steps) ∧ Provides s .sym cnt.toNat

/-- Address `i` is a carrier byte of `n` symbols at degree `d` (R44). -/
def isCarrier (d : Degree) (n i : Nat) : Bool :=
  decide (Config.headerSize ≤ i) && decide (i < Config.headerSize + n * d.steps)

/-- The symbol an address of the carrier region belongs to, `(i - 54) div S` (R44, R107). -/
def symbolOf (d : Degree) (i : Nat) : Nat := (i - Config.headerSize) / d.steps

/-- The chunk an address of the carrier region carries, `(i - 54) mod S` (R44, R107). -/
def chunkOf (d : Degree) (i : Nat) : Nat := (i - Config.headerSize) % d.steps

/-- Chunk `c` of a symbol, `s[7 - c*d : 8 - (c+1)*d]` as a number in the low `d` bits: `(s >> (8 - d*(c+1))) & ext_mask(d)`
(R45, R107). -/
def chunkBits (d : Degree) (v : Byte) (c : Nat) : Byte := (v >>> (8 - d.bits * (c + 1))) &&& extMaskOf d

/-- A carrier byte after embedding chunk `c` of the symbol `v` (R107). -/
def carry (d : Degree) (px v : Byte) (c : Nat) : Byte := (px &&& imgMaskOf d) ||| chunkBits d v c

/-- `OUT[i]` after a successful `EMBED d, L, P` that began in state `s`, as far as bytes of `IMG` and `SYM` are written
(R107). -/
def embedResult (s : State) (d : Degree) (len cnt : Len) (i : Nat) : Option Byte :=
  if i < len.toNat then
    if isCarrier d cnt.toNat i then
      match s.byteAt .img i, s.byteAt .sym (symbolOf d i) with
      | some px, some v => some (carry d px v (chunkOf d i))
      | _, _ => none
    else s.byteAt .img i
  else s.byteAt .out i

/-- The number `sum over c = 0 .. S-1 of (px[c] & ext_mask(d)) << (d * (S - 1 - c))` (R125), for the pixel bytes `px` of a
symbol in address order. -/
def gather (d : Degree) : List Byte → Nat
  | [] => 0
  | px :: rest => (px &&& extMaskOf d).toNat * 2 ^ (d.bits * rest.length) + gather d rest

/-- The carrier bytes of symbol `k` in a space, in address order, if all are written (R44). -/
def carriersOf (s : State) (d : Degree) (k : Nat) : Option (List Byte) :=
  (List.range d.steps).mapM (fun c => s.byteAt .img (Config.headerSize + k * d.steps + c))

/-- `SYM[k]` after a successful `EXTRACT d, L, N` that began in state `s` (R125). -/
def extractResult (s : State) (d : Degree) (cnt : Len) (k : Nat) : Option Byte :=
  if k < cnt.toNat then (carriersOf s d k).map (fun l => BitVec.ofNat 8 (gather d l))
  else s.byteAt .sym k

/-- The transactions of EMBED at address `i`: the symbol first if `i` is the first carrier byte of one, then the pixel
byte, then the write (R49). -/
def embedAccesses (d : Degree) (cnt : Len) (i : Nat) : List (Space × AccessKind × Nat) :=
  (if isCarrier d cnt.toNat i && decide (chunkOf d i = 0) then [(Space.sym, AccessKind.read, symbolOf d i)] else [])
    ++ [(Space.img, AccessKind.read, i), (Space.out, AccessKind.write, i)]

/-- The transactions of EXTRACT at address `i`: the pixel byte, then the symbol if `i` is its last carrier byte (R49). -/
def extractAccesses (d : Degree) (i : Nat) : List (Space × AccessKind × Nat) :=
  (Space.img, AccessKind.read, i)
    :: (if chunkOf d i + 1 = d.steps then [(Space.sym, AccessKind.write, symbolOf d i)] else [])

/-- The three spaces are in canonical form (R22, R40). -/
def MemoriesWf (s : State) : Prop := Memory.wf s.img = true ∧ Memory.wf s.sym = true ∧ Memory.wf s.out = true

/-- A response has the form of R67: bits `[7:5]` zero, a code of 0 to 4, and `VALUE` and `NONE` zero with an error. -/
def ResponseFormed (r : Rsp) : Prop :=
  zeroField r = 0 ∧ codeField r ≤ 4 ∧ (codeField r ≠ 0 → valueField r = 0 ∧ noneFlag r = false)

/-- Where an EMBED stands: in the header, in the body with `CUR = 54 + SIDX * STEPS + CHUNK`, or in the tail (R13, R14,
R103 to R106). -/
def EmbedPosition (d : Degree) (s : State) : Prop :=
  (s.cur.toNat < Config.headerSize ∧ s.sidx = 0 ∧ s.chunk = 0) ∨
  (s.sidx < s.cnt ∧ s.chunk.toNat < d.steps ∧
    s.cur.toNat = Config.headerSize + s.sidx.toNat * d.steps + s.chunk.toNat) ∨
  (s.sidx = s.cnt ∧ s.chunk = 0 ∧ Config.headerSize + s.cnt.toNat * d.steps ≤ s.cur.toNat ∧ s.cur ≤ s.len)

/-- Where an EXTRACT stands: `CUR = 54 + SIDX * STEPS + CHUNK` (R14, R123, R124). -/
def ExtractPosition (d : Degree) (s : State) : Prop :=
  s.sidx ≤ s.cnt ∧ s.chunk.toNat < d.steps ∧ (s.sidx = s.cnt → s.chunk = 0) ∧
  s.cur.toNat = Config.headerSize + s.sidx.toNat * d.steps + s.chunk.toNat

/-- What holds of the registers while a command runs (R12 to R14, R17, R94, R138). -/
def RunInv (s : State) : Prop :=
  ∃ d, Degree.ofField s.deg = some d ∧ s.textMask = textMaskOf d ∧ s.imgMask = imgMaskOf d ∧
    admissible d s.len s.cnt = true ∧ ((s.op = 0x3 ∧ EmbedPosition d s) ∨ (s.op = 0x4 ∧ ExtractPosition d s))

/-- The invariant of the machine: canonical spaces (R40), a well-formed response register (R67), `SIDX <= CNT` and
`CUR <= LEN` at all times (R12, R13), the run invariant in `RUN`, and the ownership window open in `RUN` and closed in `IDLE`
(R52). -/
def Inv (s : State) : Prop :=
  MemoriesWf s ∧ ResponseFormed s.rsp ∧ s.sidx ≤ s.cnt ∧ s.cur ≤ s.len ∧
  (s.phase = .run → RunInv s ∧ s.host.lent = true) ∧ (s.phase = .idle → s.host.lent = false)

end Sys2Proof.Machine
end

