-- ==== Sys2Proof/Certificates/Slice0/Obligations.lean ====
section
/-! DEFINITION. The statements for the provers, in the order of the spec's files: encoding, masks, capacity, EMBED, EXTRACT,
sequencing, errors, reset and the invariants. -/

open Sys2Proof Sys2Proof.Machine

/-! ## The command format (`30_encoding.md`) -/

/-- Decoding the descriptor of a command gives the command back, with every operand at every value (R61, R62, R69). -/
def Obligations.DecodeOfEncodeIsTheCommand : Prop :=
  ∀ i : Instr, decode (encode i) = .ok i

/-- A descriptor is the command of a row of the opcode table exactly when `(cmd & mask) = match`, and it then has the row's
pattern: 32 `CNT` bits, 32 `LEN` bits, 24 zeros, 4 `DEG` bits, the opcode (R68). -/
def Obligations.DescriptorIsARowExactlyWhenItMatches : Prop :=
  ∀ cmd : Cmd,
    ((∃ deg, decode cmd = .ok (.masks deg)) ↔ cmd &&& 0x0000000000000000FFFFFF0F#96 = 0x1#96) ∧
    ((∃ deg len, decode cmd = .ok (.capacity deg len)) ↔ cmd &&& 0x0000000000000000FFFFFF0F#96 = 0x2#96) ∧
    ((∃ deg len cnt, decode cmd = .ok (.embed deg len cnt)) ↔ cmd &&& 0x0000000000000000FFFFFF0F#96 = 0x3#96) ∧
    ((∃ deg len cnt, decode cmd = .ok (.extract deg len cnt)) ↔ cmd &&& 0x0000000000000000FFFFFF0F#96 = 0x4#96) ∧
    (∀ op : BitVec 4, cmd &&& 0x0000000000000000FFFFFF0F#96 = op.setWidth 96 ↔
      ∃ (cnt len : BitVec 32) (deg : BitVec 4), cmd = cnt ++ len ++ 0#24 ++ deg ++ op)

/-- The illegal descriptors are those with `RSV != 0` or a reserved opcode; each is accepted like any other and answered
`InvalidCommand`, `RSP = 0x0000000004`, and nothing but `RSP` and `PHASE` changes (R65, R151). -/
def Obligations.IllegalDescriptorIsAnsweredInvalidCommand : Prop :=
  ∀ cmd : Cmd,
    ((∃ r, decode cmd = .error r) ↔ (rsvField cmd ≠ 0 ∨ opField cmd = 0x0 ∨ 0x5 ≤ opField cmd)) ∧
    ((∃ r, decode cmd = .error r) →
      ∀ s : State, acceptStep cmd s = .next { s with rsp := 0x0000000004, phase := .resp })

/-- The descriptors listed in 95_test_vectors.md section 7 decode to the results listed there (R69). -/
def Obligations.ListedDescriptorsDecodeAsListed : Prop :=
  decode 0x00000040000003E800000043 = .ok (.embed 4 1000 64) ∧
  decode 0x00000040000003E800000044 = .ok (.extract 4 1000 64) ∧
  decode 0x00000000000003E800000042 = .ok (.capacity 4 1000) ∧
  decode 0xDEADBEEF000003E800000042 = .ok (.capacity 4 1000) ∧
  decode 0xDEADBEEFCAFEF00D000000F1 = .ok (.masks 15) ∧
  decode 0x000000000000000000000100 = .error (.reservedBits 1) ∧
  decode 0x000000000000000080000001 = .error (.reservedBits 0x800000) ∧
  decode 0x000000000000000000000006 = .error (.reservedOpcode 6)

/-- MASKS ignores `LEN` and `CNT` and CAPACITY ignores `CNT`: any value there gives the same result in every state; the
encoder writes zero there; `RSV` is no such field, since a non-zero `RSV` makes every descriptor illegal (R66). -/
def Obligations.UnusedFieldsAreIgnored : Prop :=
  (∀ (deg : DegField) (len cnt : Len) (s : State),
    acceptStep (descriptor 0x1 deg len cnt) s = exec (.masks deg) s ∧
    acceptStep (descriptor 0x2 deg len cnt) s = exec (.capacity deg len) s) ∧
  (∀ (deg : DegField) (len : Len),
    encode (.masks deg) = descriptor 0x1 deg 0 0 ∧ encode (.capacity deg len) = descriptor 0x2 deg len 0) ∧
  (∀ cmd : Cmd, rsvField cmd ≠ 0 → ∃ r, decode cmd = .error r)

/-- The assembler encodes a line exactly when its degree is at most 15 and its numbers are below 2^32, putting `d` in `DEG`,
`L` in `LEN`, `P` or `N` in `CNT` and zero elsewhere (R70). -/
def Obligations.AssemblerEncodesExactlyWhatFits : Prop :=
  (∀ (d len cnt : Nat) (w : Cmd),
    (assembleLine (.embed d len cnt) = .ok w ↔
      d < 16 ∧ len < 2 ^ 32 ∧ cnt < 2 ^ 32 ∧
        w = descriptor 0x3 (BitVec.ofNat 4 d) (BitVec.ofNat 32 len) (BitVec.ofNat 32 cnt)) ∧
    (assembleLine (.extract d len cnt) = .ok w ↔
      d < 16 ∧ len < 2 ^ 32 ∧ cnt < 2 ^ 32 ∧
        w = descriptor 0x4 (BitVec.ofNat 4 d) (BitVec.ofNat 32 len) (BitVec.ofNat 32 cnt)) ∧
    (assembleLine (.capacity d len) = .ok w ↔
      d < 16 ∧ len < 2 ^ 32 ∧ w = descriptor 0x2 (BitVec.ofNat 4 d) (BitVec.ofNat 32 len) 0) ∧
    (assembleLine (.masks d) = .ok w ↔ d < 16 ∧ w = descriptor 0x1 (BitVec.ofNat 4 d) 0 0)) ∧
  assembleText "EMBED 4, 1000, 64".toList = .ok (some 0x00000040000003E800000043)

/-- The fields of a response: `respond` builds the word whose `CODE`, `NONE`, zero bits and `VALUE` are what it was given, and
a response is determined by them (R67, R139). -/
def Obligations.ResponseFieldsAreWhatRespondWasGiven : Prop :=
  (∀ (code : Code) (none : Bool) (value : BitVec 32) (s : State),
    (respond code none value s).phase = .resp ∧
    codeField (respond code none value s).rsp = code.number ∧
    noneFlag (respond code none value s).rsp = none ∧
    zeroField (respond code none value s).rsp = 0 ∧
    valueField (respond code none value s).rsp = value) ∧
  (∀ r r' : Rsp, codeField r = codeField r' → noneFlag r = noneFlag r' → zeroField r = zeroField r' →
    valueField r = valueField r' → r = r')

/-! ## Masks (`40_masks.md`) -/

/-- The mask table holds the source's formulas, bit by bit (R80, R81, R82). -/
def Obligations.MaskTableFollowsTheFormulas : Prop :=
  ∀ d : Degree,
    (textMaskOf d).toNat = (0xFF * 2 ^ (8 - d.bits)) % 256 ∧
    (∀ j, j < 8 → (textMaskOf d).getLsbD j = decide (8 - d.bits ≤ j)) ∧
    (imgMaskOf d).toNat = (0xFF / 2 ^ d.bits) * 2 ^ d.bits ∧
    (∀ j, j < 8 → (imgMaskOf d).getLsbD j = decide (d.bits ≤ j)) ∧
    extMaskOf d = ~~~ imgMaskOf d ∧
    (extMaskOf d).toNat = 2 ^ d.bits - 1 ∧
    (∀ j, j < 8 → (extMaskOf d).getLsbD j = decide (j < d.bits))

/-- The five properties of the masks, with the union of `text_mask` and `img_mask` as it really is (R84). -/
def Obligations.MasksHaveTheStatedProperties : Prop :=
  (∀ d : Degree,
    ((List.range 8).countP (fun j => (textMaskOf d).getLsbD j) = d.bits ∧
      ∀ j, j < 8 - d.bits → (textMaskOf d).getLsbD j = false) ∧
    ((List.range 8).countP (fun j => (imgMaskOf d).getLsbD j) = 8 - d.bits ∧
      ∀ j, j < d.bits → (imgMaskOf d).getLsbD j = false) ∧
    imgMaskOf d ||| extMaskOf d = 0xFF ∧ imgMaskOf d &&& extMaskOf d = 0x00 ∧
    textMaskOf d >>> d.shamt = extMaskOf d) ∧
  textMaskOf .one ||| imgMaskOf .one = 0xFE ∧ textMaskOf .two ||| imgMaskOf .two = 0xFC ∧
  textMaskOf .four ||| imgMaskOf .four = 0xF0 ∧ textMaskOf .eight ||| imgMaskOf .eight = 0xFF

/-- MASKS completes in every state: at a legal degree it answers `{0x00, ext_mask, img_mask, text_mask}` with `NONE` and `CODE`
zero, at any other `InvalidDegree`; it writes `RSP` and `PHASE` only (R85). -/
def Obligations.MasksAnswersTheMasksOfTheDegree : Prop :=
  ∀ s : State,
    (∀ d : Degree, exec (.masks d.field) s =
      .next { s with rsp := 0x00#8 ++ extMaskOf d ++ imgMaskOf d ++ textMaskOf d ++ 0x00#8, phase := .resp }) ∧
    (∀ deg : DegField, deg ≠ 1 → deg ≠ 2 → deg ≠ 4 → deg ≠ 8 →
      exec (.masks deg) s = .next { s with rsp := 0x0000000001, phase := .resp })

/-- A degree other than 1, 2, 4 and 8 makes each of the four commands answer `InvalidDegree`, `RSP = 0x0000000001`, with no
other effect, whatever the other operands (R152). -/
def Obligations.IllegalDegreeOpensEveryCommand : Prop :=
  ∀ (s : State) (deg : DegField) (len cnt : Len), deg ≠ 1 → deg ≠ 2 → deg ≠ 4 → deg ≠ 8 →
    exec (.masks deg) s = .next { s with rsp := 0x0000000001, phase := .resp } ∧
    exec (.capacity deg len) s = .next { s with rsp := 0x0000000001, phase := .resp } ∧
    exec (.embed deg len cnt) s = .next { s with rsp := 0x0000000001, phase := .resp } ∧
    exec (.extract deg len cnt) s = .next { s with rsp := 0x0000000001, phase := .resp }

/-! ## Capacity (`41_capacity.md`) -/

/-- The capacity check is the exact inequality `8 * (P + 54) < L * d`, which is `P < L * d / 8 - 54` over the rationals; at
`L = 109`, `d = 4`, `P = 0` it admits, where a floor would refuse (R90, R91). -/
def Obligations.CapacityCheckIsTheExactInequality : Prop :=
  (∀ (d : Degree) (len cnt : Len),
    (admissible d len cnt = true ↔ 8 * (cnt.toNat + 54) < len.toNat * d.bits) ∧
    (admissible d len cnt = true ↔ (cnt.toNat : ℚ) < (len.toNat : ℚ) * (d.bits : ℚ) / 8 - 54)) ∧
  admissible .four 109 0 = true

/-- The capacity comparison is made at 36 bits, of `zext_36(L) << LOG2(d)` and `(zext_36(P) + 54) << 3` as unsigned numbers,
and neither side wraps (R92). -/
def Obligations.CapacityComparisonDoesNotWrap : Prop :=
  ∀ (d : Degree) (len cnt : Len),
    (admissible d len cnt = true ↔ scaledCount cnt < scaledLength d len) ∧
    scaledLength d len = len.setWidth 36 <<< d.log2 ∧ scaledCount cnt = (cnt.setWidth 36 + 54) <<< 3 ∧
    (scaledLength d len).toNat = len.toNat * d.bits ∧ len.toNat * d.bits < 2 ^ 35 ∧
    (scaledCount cnt).toNat = 8 * (cnt.toNat + 54) ∧ 8 * (cnt.toNat + 54) < 2 ^ 36

/-- The admissible counts are none when `L * d <= 432` and exactly `0 .. P_max` otherwise, `P_max = ((L * d - 1) div 8) - 54`
is below `2^32`, and the smallest images that admit anything, where only the empty payload fits, are those of 433, 217,
109 and 55 bytes (R93). -/
def Obligations.AdmissibleCountsEndAtTheCapacity : Prop :=
  (∀ (d : Degree) (len : Len),
    (len.toNat * d.bits ≤ 432 → ∀ cnt, admissible d len cnt = false) ∧
    (433 ≤ len.toNat * d.bits →
      (∀ cnt : Len, admissible d len cnt = true ↔ cnt.toNat ≤ (len.toNat * d.bits - 1) / 8 - 54) ∧
      54 ≤ (len.toNat * d.bits - 1) / 8 ∧ (len.toNat * d.bits - 1) / 8 - 54 < 2 ^ 32)) ∧
  (∀ len : Len,
    ((∃ cnt, admissible .one len cnt = true) ↔ 433 ≤ len.toNat) ∧
    ((∃ cnt, admissible .two len cnt = true) ↔ 217 ≤ len.toNat) ∧
    ((∃ cnt, admissible .four len cnt = true) ↔ 109 ≤ len.toNat) ∧
    ((∃ cnt, admissible .eight len cnt = true) ↔ 55 ≤ len.toNat)) ∧
  (∀ cnt : Len,
    (admissible .one 433 cnt = true ↔ cnt = 0) ∧ (admissible .two 217 cnt = true ↔ cnt = 0) ∧
    (admissible .four 109 cnt = true ↔ cnt = 0) ∧ (admissible .eight 55 cnt = true ↔ cnt = 0))

/-- An admissible count keeps the carrier bytes strictly inside the image, leaves at least one tail byte, and its carrier
count does not wrap at 32 bits (R94). -/
def Obligations.AdmissibleCountStaysInsideTheImage : Prop :=
  ∀ (d : Degree) (len cnt : Len), admissible d len cnt = true →
    54 + cnt.toNat * d.steps < len.toNat ∧ 55 ≤ len.toNat ∧
    (∀ k c, k < cnt.toNat → c < d.steps → 54 + k * d.steps + c < len.toNat) ∧
    (carrierCount d cnt).toNat = cnt.toNat * d.steps

/-- CAPACITY completes in every state at a legal degree: `NONE = 1` and `VALUE = 0` when `L * d <= 432`, else `NONE = 0` and the
largest admissible count; it writes `RSP` and `PHASE` only. From 433 to 440 the largest count is 0 and an empty payload is
admissible (R95, R96). -/
def Obligations.CapacityAnswersTheLargestCountOrNone : Prop :=
  ∀ (s : State) (d : Degree) (len : Len),
    (len.toNat * d.bits ≤ 432 →
      exec (.capacity d.field len) s = .next { s with rsp := 0x0000000010, phase := .resp }) ∧
    (432 < len.toNat * d.bits →
      exec (.capacity d.field len) s = .next { s with
        rsp := BitVec.ofNat 32 ((len.toNat * d.bits - 1) / 8 - 54) ++ 0x00#8
        phase := .resp }) ∧
    (433 ≤ len.toNat * d.bits → len.toNat * d.bits ≤ 440 →
      exec (.capacity d.field len) s = .next { s with rsp := 0, phase := .resp } ∧ admissible d len 0 = true)

/-- CAPACITY agrees with the transforms: EMBED and EXTRACT start a run exactly when CAPACITY, for the same length and degree,
answers `NONE = 0` and the count is at most its `VALUE` (R95). -/
def Obligations.CapacityAgreesWithTheTransforms : Prop :=
  ∀ (s t u v : State) (d : Degree) (len cnt : Len),
    exec (.capacity d.field len) s = .next t →
    exec (.embed d.field len cnt) s = .next u →
    exec (.extract d.field len cnt) s = .next v →
    (u.phase = .run ↔ noneFlag t.rsp = false ∧ cnt ≤ valueField t.rsp) ∧
    (v.phase = .run ↔ noneFlag t.rsp = false ∧ cnt ≤ valueField t.rsp)

/-! ## EMBED (`42_embed.md`) -/

/-- EMBED's accept step completes: with a legal degree and an admissible count it loads the registers of R102 and starts the
run; `SHR`, `ACC`, `RSP` and all three spaces keep their contents (R102). The model's flag of the ownership window is left
open here; `HostHasNoMoveOnTheCommandsRanges` speaks of it. -/
def Obligations.EmbedStartsTheRun : Prop :=
  ∀ (s : State) (d : Degree) (len cnt : Len), 8 * (cnt.toNat + 54) < len.toNat * d.bits →
    ∃ lent : Bool, exec (.embed d.field len cnt) s = .next { s with
      op := 0x3
      deg := d.field
      len := len
      cnt := cnt
      textMask := textMaskOf d
      imgMask := imgMaskOf d
      cur := 0
      sidx := 0
      chunk := 0
      phase := .run
      host := { s.host with lent := lent } }

/-- EMBED's two checks, in their order: an illegal degree is answered `InvalidDegree`, then a count that is not admissible
`PayloadTooLarge`, as is every image shorter than 55 bytes; nothing but `RSP` and `PHASE` changes (R101, R153). -/
def Obligations.EmbedChecksDegreeThenCapacity : Prop :=
  ∀ (s : State) (len cnt : Len),
    (∀ deg : DegField, deg ≠ 1 → deg ≠ 2 → deg ≠ 4 → deg ≠ 8 →
      exec (.embed deg len cnt) s = .next { s with rsp := 0x0000000001, phase := .resp }) ∧
    (∀ d : Degree, ¬ 8 * (cnt.toNat + 54) < len.toNat * d.bits →
      exec (.embed d.field len cnt) s = .next { s with rsp := 0x0000000002, phase := .resp }) ∧
    (∀ d : Degree, len.toNat < 55 →
      exec (.embed d.field len cnt) s = .next { s with rsp := 0x0000000002, phase := .resp })

/-- A header or tail copy step of EMBED: the byte read from `IMG` at `CUR` (a free draw if nobody wrote it) goes to `OUT` at
`CUR`, `CUR` moves on by one, nothing else of the engine changes, and every other byte of every space reads as before
(R103, R105). -/
def Obligations.EmbedCopyStepCopiesOneByte : Prop :=
  ∀ (s : State) (rest : List HostMove) (d : Degree), Running s rest d → s.op = 0x3 →
    (s.cur.toNat < 54 ∨ (54 ≤ s.cur.toNat ∧ s.sidx = s.cnt ∧ s.cur < s.len)) →
    s.inExtent .img s.cur = true → s.inExtent .out s.cur = true →
    ∃ t, step s = .next t ∧
      t = { s.begin rest with
        out := Memory.write s.out s.cur.toNat (s.draw .img s.cur).1
        cur := s.cur + 1
        draws := (s.draw .img s.cur).2.draws
        bus := [⟨.img, .read, s.cur, (s.draw .img s.cur).1⟩, ⟨.out, .write, s.cur, (s.draw .img s.cur).1⟩] } ∧
      (∀ v, s.byteAt .img s.cur.toNat = some v → t.byteAt .out s.cur.toNat = some v) ∧
      (∀ sp a, (sp ≠ .out ∨ a ≠ s.cur.toNat) → t.byteAt sp a = s.byteAt sp a)

/-- A body step of EMBED: one chunk of the symbol, fetched from `SYM` at the first chunk and from `SHR` after it, goes into the
low bits of the pixel byte at `CUR`, with the register changes of R104; every other byte of every space reads as before
(R104, R15). Bytes nobody wrote are free draws, the symbol's first (R49, R56). -/
def Obligations.EmbedBodyStepEmbedsOneChunk : Prop :=
  ∀ (s s1 : State) (rest : List HostMove) (d : Degree) (sv px w : Byte), Running s rest d → s.op = 0x3 →
    54 ≤ s.cur.toNat → s.sidx < s.cnt →
    (s.chunk = 0 → s.inExtent .sym s.sidx = true) → s.inExtent .img s.cur = true → s.inExtent .out s.cur = true →
    (sv, s1) = (if s.chunk = 0 then s.draw .sym s.sidx else (s.shr, s)) →
    px = (s1.draw .img s.cur).1 →
    w = (px &&& s.imgMask) ||| ((sv &&& s.textMask) >>> (8 - d.bits)) →
    ∃ t, step s = .next t ∧
      t = { s.begin rest with
        out := Memory.write s.out s.cur.toNat w
        shr := sv <<< d.bits
        cur := s.cur + 1
        chunk := if s.chunk.toNat + 1 = d.steps then 0 else s.chunk + 1
        sidx := if s.chunk.toNat + 1 = d.steps then s.sidx + 1 else s.sidx
        draws := (s1.draw .img s.cur).2.draws
        bus := (if s.chunk = 0 then [⟨.sym, .read, s.sidx, sv⟩] else []) ++
          [⟨.img, .read, s.cur, px⟩, ⟨.out, .write, s.cur, w⟩] } ∧
      t.byteAt .out s.cur.toNat = some w ∧
      (∀ sp a, (sp ≠ .out ∨ a ≠ s.cur.toNat) → t.byteAt sp a = s.byteAt sp a)

/-- The top `d` bits of a symbol shifted left by its chunks already emitted, moved down, are its next chunk: the 8-bit shift
register loses nothing (R15, R45, R104). -/
def Obligations.ShiftedSymbolGivesItsNextChunk : Prop :=
  ∀ (d : Degree) (v : Byte) (c : Nat), c < d.steps →
    ((v <<< (d.bits * c)) &&& textMaskOf d) >>> d.shamt = chunkBits d v c ∧
    (chunkBits d v c).toNat = v.toNat / 2 ^ (8 - d.bits * (c + 1)) % 2 ^ d.bits

/-- The completion step of EMBED (`SIDX = CNT`, `CUR = LEN`) and of EXTRACT (`SIDX = CNT`): it answers `OK` with
`VALUE = CNT * STEPS(DEG)`, touches no memory, and leaves every register but `RSP` and `PHASE` as it is (R106, R124). -/
def Obligations.CompletionStepAnswersTheCarrierCount : Prop :=
  ∀ (s : State) (rest : List HostMove) (d : Degree), Running s rest d → s.sidx = s.cnt →
    ((s.op = 0x3 ∧ 54 ≤ s.cur.toNat ∧ s.cur = s.len) ∨ s.op = 0x4) →
    step s = .next { s.begin rest with
      rsp := (s.cnt * BitVec.ofNat 32 d.steps) ++ 0x00#8
      phase := .resp }

/-- EMBED, whole: from a waiting engine with the descriptor on its port, the storage provided and the image and the symbols
written, exactly `L + 2` steps lead to the response `OK` with the carrier count; `OUT` then holds the closed form of R107 below
`L` and what it held above, and `IMG` and `SYM` are as they were (R107, R113). -/
def Obligations.EmbedWritesTheClosedForm : Prop :=
  ∀ (s : State) (d : Degree) (len cnt : Len),
    Presents s (encode (.embed d.field len cnt)) → admissible d len cnt = true → EmbedStorage s len cnt →
    WrittenFrom s .img 0 len.toNat → WrittenFrom s .sym 0 cnt.toNat →
    ∃ t, stepN (len.toNat + 2) s = .next t ∧ t.phase = .resp ∧
      t.rsp = responseWord .ok false (carrierCount d cnt) ∧
      t.cur = len ∧ t.sidx = cnt ∧ t.chunk = 0 ∧
      t.img = s.img ∧ t.sym = s.sym ∧
      ∀ i, t.byteAt .out i = embedResult s d len cnt i

/-- A successful EMBED keeps the 54 header bytes, and the bits above the degree of every byte of the image (R108, R110). -/
def Obligations.EmbedKeepsHeaderAndHighBits : Prop :=
  ∀ (s : State) (d : Degree) (len cnt : Len),
    Presents s (encode (.embed d.field len cnt)) → admissible d len cnt = true → EmbedStorage s len cnt →
    WrittenFrom s .img 0 len.toNat → WrittenFrom s .sym 0 cnt.toNat →
    ∃ t, stepN (len.toNat + 2) s = .next t ∧ t.phase = .resp ∧
    (∀ i, i < 54 → t.byteAt .out i = s.byteAt .img i) ∧
    (∀ i, i < len.toNat → ∃ px w, s.byteAt .img i = some px ∧ t.byteAt .out i = some w ∧
      w &&& imgMaskOf d = px &&& imgMaskOf d)

/-- The buffer transactions of a successful EMBED are exactly those of R48, in the order of R49: for each address in turn, the
symbol first at a symbol's first carrier byte, then the read of `IMG`, then the write of `OUT`. Whether the bytes are written
makes no difference (R48, R49). -/
def Obligations.EmbedAccessesComeInOrder : Prop :=
  ∀ (s : State) (d : Degree) (len cnt : Len),
    Presents s (encode (.embed d.field len cnt)) → admissible d len cnt = true → EmbedStorage s len cnt →
    (traffic (len.toNat + 2) s).map Access.place = (List.range len.toNat).flatMap (embedAccesses d cnt)

/-- EMBED is a pure function of the image bytes, the symbols, the degree and the lengths, whatever came before: two engines with
the same bytes in those ranges give the same response and the same `OUT` below `L` (R111). -/
def Obligations.EmbedIsAPureFunction : Prop :=
  ∀ (s s' : State) (d : Degree) (len cnt : Len),
    Presents s (encode (.embed d.field len cnt)) → Presents s' (encode (.embed d.field len cnt)) →
    admissible d len cnt = true → EmbedStorage s len cnt → EmbedStorage s' len cnt →
    WrittenFrom s .img 0 len.toNat → WrittenFrom s .sym 0 cnt.toNat →
    (∀ i, i < len.toNat → s'.byteAt .img i = s.byteAt .img i) →
    (∀ i, i < cnt.toNat → s'.byteAt .sym i = s.byteAt .sym i) →
    ∃ t t', stepN (len.toNat + 2) s = .next t ∧ stepN (len.toNat + 2) s' = .next t' ∧
    t.phase = .resp ∧ t'.phase = .resp ∧ t'.rsp = t.rsp ∧ ∀ i, i < len.toNat → t'.byteAt .out i = t.byteAt .out i

/-! ## EXTRACT (`43_extract.md`) -/

/-- EXTRACT's accept step completes: with a legal degree and an admissible count it loads the registers of R122, the cursor at 54
and the accumulator cleared, and starts the run; `SHR`, `RSP` and all three spaces keep their contents (R122). The model's
flag of the ownership window is left open here; `HostHasNoMoveOnTheCommandsRanges` speaks of it. -/
def Obligations.ExtractStartsTheRun : Prop :=
  ∀ (s : State) (d : Degree) (len cnt : Len), 8 * (cnt.toNat + 54) < len.toNat * d.bits →
    ∃ lent : Bool, exec (.extract d.field len cnt) s = .next { s with
      op := 0x4
      deg := d.field
      len := len
      cnt := cnt
      textMask := textMaskOf d
      imgMask := imgMaskOf d
      cur := 54
      sidx := 0
      chunk := 0
      acc := 0x00
      phase := .run
      host := { s.host with lent := lent } }

/-- EXTRACT's two checks, in their order: an illegal degree is answered `InvalidDegree`, then a count that is not admissible
`ReadTooLarge`; nothing but `RSP` and `PHASE` changes (R121, R154). -/
def Obligations.ExtractChecksDegreeThenCapacity : Prop :=
  ∀ (s : State) (len cnt : Len),
    (∀ deg : DegField, deg ≠ 1 → deg ≠ 2 → deg ≠ 4 → deg ≠ 8 →
      exec (.extract deg len cnt) s = .next { s with rsp := 0x0000000001, phase := .resp }) ∧
    (∀ d : Degree, ¬ 8 * (cnt.toNat + 54) < len.toNat * d.bits →
      exec (.extract d.field len cnt) s = .next { s with rsp := 0x0000000003, phase := .resp })

/-- A body step of EXTRACT: the low bits of the pixel byte at `CUR` (a free draw if nobody wrote it) join the accumulator; the
last chunk of a symbol writes the byte to `SYM` and clears the accumulator; every other byte of every space reads as before
(R123, R16). -/
def Obligations.ExtractBodyStepGathersOneChunk : Prop :=
  ∀ (s : State) (rest : List HostMove) (d : Degree) (px a : Byte), Running s rest d → s.op = 0x4 → s.sidx < s.cnt →
    s.inExtent .img s.cur = true → (s.chunk.toNat + 1 = d.steps → s.inExtent .sym s.sidx = true) →
    px = (s.draw .img s.cur).1 → a = (s.acc <<< d.bits) ||| (px &&& ~~~ s.imgMask) →
    ∃ t, step s = .next t ∧
      t = { s.begin rest with
        cur := s.cur + 1
        sym := if s.chunk.toNat + 1 = d.steps then Memory.write s.sym s.sidx.toNat a else s.sym
        acc := if s.chunk.toNat + 1 = d.steps then 0x00 else a
        chunk := if s.chunk.toNat + 1 = d.steps then 0 else s.chunk + 1
        sidx := if s.chunk.toNat + 1 = d.steps then s.sidx + 1 else s.sidx
        draws := (s.draw .img s.cur).2.draws
        bus := [⟨.img, .read, s.cur, px⟩] ++
          (if s.chunk.toNat + 1 = d.steps then [⟨.sym, .write, s.sidx, a⟩] else []) } ∧
      (s.chunk.toNat + 1 = d.steps → t.byteAt .sym s.sidx.toNat = some a) ∧
      (∀ sp i, (sp ≠ .sym ∨ i ≠ s.sidx.toNat ∨ s.chunk.toNat + 1 ≠ d.steps) → t.byteAt sp i = s.byteAt sp i)

/-- EXTRACT, whole: from a waiting engine with the descriptor on its port, the storage provided and the carrier bytes written,
exactly `N * STEPS(d) + 2` steps lead to the response `OK` with the carrier count; `SYM` then holds the closed form of R125
below `N` and what it held above, and `IMG` and `OUT` are as they were (R125, R131). -/
def Obligations.ExtractWritesTheClosedForm : Prop :=
  ∀ (s : State) (d : Degree) (len cnt : Len),
    Presents s (encode (.extract d.field len cnt)) → admissible d len cnt = true → ExtractStorage s d cnt →
    WrittenFrom s .img 54 (54 + cnt.toNat * d.steps) →
    ∃ t, stepN (cnt.toNat * d.steps + 2) s = .next t ∧ t.phase = .resp ∧
      t.rsp = responseWord .ok false (carrierCount d cnt) ∧
      t.cur.toNat = 54 + cnt.toNat * d.steps ∧ t.chunk = 0 ∧ t.acc = 0x00 ∧
      t.img = s.img ∧ t.out = s.out ∧
      ∀ k, t.byteAt .sym k = extractResult s d cnt k

/-- The buffer transactions of a successful EXTRACT are exactly those of R48, in the order of R49: each carrier byte in turn,
and the write of a symbol after its last one (R48, R49). -/
def Obligations.ExtractAccessesComeInOrder : Prop :=
  ∀ (s : State) (d : Degree) (len cnt : Len),
    Presents s (encode (.extract d.field len cnt)) → admissible d len cnt = true → ExtractStorage s d cnt →
    (traffic (cnt.toNat * d.steps + 2) s).map Access.place =
      (List.range (cnt.toNat * d.steps)).flatMap (fun j => extractAccesses d (54 + j))

/-- Round trip: whatever EMBED put into `OUT`, EXTRACT at the same degree and count gets back from an `IMG` that holds those
carrier bytes, for any length the count is admissible for (R126). -/
def Obligations.ExtractRecoversWhatEmbedWrote : Prop :=
  ∀ (s : State) (d : Degree) (len cnt : Len),
    Presents s (encode (.embed d.field len cnt)) → admissible d len cnt = true → EmbedStorage s len cnt →
    WrittenFrom s .img 0 len.toNat → WrittenFrom s .sym 0 cnt.toNat →
    ∃ t, stepN (len.toNat + 2) s = .next t ∧ t.phase = .resp ∧ codeField t.rsp = 0 ∧
    ∀ (u : State) (len' : Len),
    Presents u (encode (.extract d.field len' cnt)) → admissible d len' cnt = true → ExtractStorage u d cnt →
    (∀ i, isCarrier d cnt.toNat i = true → u.byteAt .img i = t.byteAt .out i) →
    ∃ v, stepN (cnt.toNat * d.steps + 2) u = .next v ∧ v.phase = .resp ∧
      v.rsp = responseWord .ok false (carrierCount d cnt) ∧
      ∀ k, k < cnt.toNat → v.byteAt .sym k = s.byteAt .sym k

/-- A count smaller than what was embedded returns a prefix and no error: EXTRACT with a smaller count gives, from the same
image bytes, the same first symbols as with a larger one (R128). -/
def Obligations.SmallerCountExtractsAPrefix : Prop :=
  ∀ (s s' : State) (d : Degree) (len len' cnt cnt' : Len), cnt ≤ cnt' →
    Presents s (encode (.extract d.field len cnt)) → admissible d len cnt = true → ExtractStorage s d cnt →
    Presents s' (encode (.extract d.field len' cnt')) → admissible d len' cnt' = true → ExtractStorage s' d cnt' →
    WrittenFrom s' .img 54 (54 + cnt'.toNat * d.steps) →
    (∀ i, isCarrier d cnt.toNat i = true → s.byteAt .img i = s'.byteAt .img i) →
    ∃ t t', stepN (cnt.toNat * d.steps + 2) s = .next t ∧ stepN (cnt'.toNat * d.steps + 2) s' = .next t' ∧
    t.phase = .resp ∧ t'.phase = .resp ∧ codeField t.rsp = 0 ∧ codeField t'.rsp = 0 ∧ ∀ k, k < cnt.toNat → t.byteAt .sym k = t'.byteAt .sym k

/-! ## Sequencing, ports and the host (`44_sequencing.md`, `20_memory.md`) -/

/-- A step runs the decoded command: at a clock edge that finds the engine in `IDLE` with `rst` low and a descriptor on the
command port that decodes to `i`, the step is `exec i`, begun with quiet buffer ports and the host's remaining moves. -/
def Obligations.StepRunsTheDecodedCommand : Prop :=
  ∀ (s : State) (rest : List HostMove) (i : Instr), EdgeNext s rest → cmdReady s = true → s.pins.cmdValid = true →
    decode s.pins.cmdData = .ok i → step s = exec i (s.begin rest)

/-- `BUSY` names `PHASE != IDLE`, and the command port is ready exactly when `BUSY` is false and reset is not asserted; out of
reset, a response is offered exactly in `PHASE = RESP`, never outside it, and what is offered is `RSP` (R20, R142). -/
def Obligations.PortLinesFollowThePhase : Prop :=
  ∀ s : State,
    (busy s = true ↔ s.phase ≠ .idle) ∧
    (cmdReady s = true ↔ busy s = false ∧ s.pins.rst = false) ∧
    (s.pins.rst = false → (rspValid s = true ↔ s.phase = .resp)) ∧ (rspValid s = true → s.phase = .resp) ∧
    (∀ r, rspData s = some r ↔ rspValid s = true ∧ r = s.rsp)

/-- No memory is accessed in an accept step, whatever the command: every byte reads as before, no transaction is made, and the
step ends with `PHASE = RESP` or `PHASE = RUN` (R136). -/
def Obligations.AcceptStepTouchesNoMemory : Prop :=
  ∀ (cmd : Cmd) (s : State), ∃ t, acceptStep cmd s = .next t ∧ (t.phase = .resp ∨ t.phase = .run) ∧
    t.bus = s.bus ∧ t.draws = s.draws ∧ ∀ sp i, t.byteAt sp i = s.byteAt sp i

/-- The port's lines mean nothing to a command in flight: while the engine is not ready for a descriptor, whatever the command
port carries, a clock edge does the same (R53, R141, R144). -/
def Obligations.CommandPortIsNotSeenWhileBusy : Prop :=
  ∀ (s t : State) (rest : List HostMove) (valid : Bool) (cmd : Cmd), EdgeNext s rest → cmdReady s = false →
    step s = .next t →
    step { s with pins := { s.pins with cmdValid := valid, cmdData := cmd } } =
      .next { t with pins := { t.pins with cmdValid := valid, cmdData := cmd } }

/-- The only changes of phase are `IDLE` to `RUN` (accept of a valid EMBED or EXTRACT: a legal degree and an admissible count),
`IDLE` to `RESP` (accept of anything else), `RUN` to `RESP` (completion: `SIDX = CNT`, and in an EMBED `CUR = LEN`), `RESP` to
`IDLE` (the host takes the response), and `IDLE` from anywhere by reset (R18, R106, R124). -/
def Obligations.PhaseChangesOnlyAsListed : Prop :=
  ∀ s t : State, step s = .next t →
    t.phase = s.phase ∨
    (s.phase = .idle ∧ t.phase = .run ∧ s.pins.cmdValid = true ∧
      ∃ d len cnt, admissible d len cnt = true ∧
        (decode s.pins.cmdData = .ok (.embed d.field len cnt) ∨ decode s.pins.cmdData = .ok (.extract d.field len cnt))) ∨
    (s.phase = .idle ∧ t.phase = .resp ∧ s.pins.cmdValid = true ∧
      ¬ ∃ d len cnt, admissible d len cnt = true ∧
        (decode s.pins.cmdData = .ok (.embed d.field len cnt) ∨ decode s.pins.cmdData = .ok (.extract d.field len cnt))) ∨
    (s.phase = .run ∧ t.phase = .resp ∧ s.sidx = s.cnt ∧ (s.op = 0x3 → s.cur = s.len)) ∨
    (s.phase = .resp ∧ t.phase = .idle ∧ s.pins.rspReady = true) ∨
    (t.phase = .idle ∧ s.pins.rst = true)

/-- Nothing but `respond` and reset writes `RSP`: a step that changes it ends with a fresh response in `PHASE = RESP`, having
begun in another phase, or is a reset (R19, R139). -/
def Obligations.OnlyRespondWritesTheResponse : Prop :=
  ∀ s t : State, step s = .next t → t.rsp ≠ s.rsp →
    (s.phase ≠ .resp ∧ t.phase = .resp ∧ s.pins.rst = false) ∨ (t.rsp = 0 ∧ t.phase = .idle ∧ s.pins.rst = true)

/-- While a command runs, its operands and masks do not change, short of reset, and `CUR` moves on by exactly one with every
step but the last, which leaves it (R11, R12, R17). -/
def Obligations.OperandsStandStillWhileRunning : Prop :=
  ∀ (s t : State) (rest : List HostMove), EdgeNext s rest → s.phase = .run → s.pins.rst = false → step s = .next t →
    t.op = s.op ∧ t.deg = s.deg ∧ t.len = s.len ∧ t.cnt = s.cnt ∧ t.textMask = s.textMask ∧ t.imgMask = s.imgMask ∧
    ((t.phase = .run ∧ t.cur = s.cur + 1) ∨ (t.phase = .resp ∧ t.cur = s.cur))

/-- The path through a run does not depend on any byte: two engines in the same run that differ in the contents of the spaces,
in `SHR`, in `ACC` and in the free draws to come have the same next phase, cursor, symbol index, chunk and response (R145). -/
def Obligations.PathOfARunDependsOnNoByte : Prop :=
  ∀ (s t : State) (rest : List HostMove) (img sym out : Memory) (shr acc : Byte) (draws : Nat),
    EdgeNext s rest → s.phase = .run → step s = .next t →
    ∃ t', step { s with img := img, sym := sym, out := out, shr := shr, acc := acc, draws := draws } = .next t' ∧
      t'.phase = t.phase ∧ t'.cur = t.cur ∧ t'.sidx = t.sidx ∧ t'.chunk = t.chunk ∧ t'.rsp = t.rsp ∧
      t'.bus.map Access.place = t.bus.map Access.place

/-- The engine never writes `IMG` and never reads `OUT`, and makes no transaction outside a run step: so at every clock edge
(R41, R43, R143). -/
def Obligations.EngineReadsImgAndWritesOutOnly : Prop :=
  ∀ (s t : State) (rest : List HostMove), EdgeNext s rest → step s = .next t →
    t.img = s.img ∧
    (∀ x ∈ t.bus, (x.space = .img → x.kind = .read) ∧ (x.space = .out → x.kind = .write)) ∧
    (t.bus ≠ [] → s.phase = .run ∧ s.pins.rst = false)

/-- At a clock edge only a run of EMBED writes `OUT` and only a run of EXTRACT writes `SYM`; so EXTRACT does not touch `OUT` and
EMBED does not write `SYM` (R42, R43). -/
def Obligations.OnlyEmbedWritesOutOnlyExtractWritesSym : Prop :=
  ∀ (s t : State) (rest : List HostMove), EdgeNext s rest → step s = .next t →
    (s.op ≠ 0x3 ∨ s.phase ≠ .run → t.out = s.out) ∧ (s.op ≠ 0x4 ∨ s.phase ≠ .run → t.sym = s.sym)

/-- The response handshake: the host receives `RSP`, `PHASE` becomes `IDLE`, the ownership window closes, nothing else changes;
until the host takes the response the engine stays as it is and takes no descriptor (R140, R52). The list `host.received`
(notes/assumptions/19.md) and the flag `host.lent` (notes/assumptions/6.md) are the model's. -/
def Obligations.HandshakeHandsOverTheResponse : Prop :=
  ∀ (s : State) (rest : List HostMove), EdgeNext s rest → s.phase = .resp → s.pins.rst = false →
    rspData s = some s.rsp ∧ cmdReady s = false ∧
    (s.pins.rspReady = true → step s = .next { s.begin rest with
      phase := .idle
      host := { s.host with script := rest, received := s.host.received ++ [s.rsp], lent := false } }) ∧
    (s.pins.rspReady = false → step s = .next (s.begin rest))

/-- A byte written to a space is the byte read there next, and a write changes no other byte of any space; a read changes none
at all (R47). -/
def Obligations.ReadReturnsTheByteLastWritten : Prop :=
  (∀ (sp : Space) (a : Addr) (v : Byte) (s t : State), memWrite sp a v s = .ok t →
    (∃ u, memRead sp a t = .ok (v, u)) ∧
    ∀ sp' i, (sp' ≠ sp ∨ i ≠ a.toNat) → t.byteAt sp' i = s.byteAt sp' i) ∧
  (∀ (sp : Space) (a : Addr) (s t : State) (v : Byte), memRead sp a s = .ok (v, t) →
    (∀ w, s.byteAt sp a.toNat = some w → v = w) ∧ ∀ sp' i, t.byteAt sp' i = s.byteAt sp' i)

/-- THE MODEL'S CHOICE (notes/assumptions/4.md, where R56 leaves a free draw or a fault): a read of a byte nobody has written
returns the next free draw, whatever it is, and a second read draws afresh. -/
def Obligations.UnwrittenByteReadsAsAFreshDraw : Prop :=
  ∀ (sp : Space) (a : Addr) (s t : State) (v : Byte), s.byteAt sp a.toNat = none → memRead sp a s = .ok (v, t) →
    v = Config.unwrittenByte s.draws ∧ t.draws = s.draws + 1 ∧ t.byteAt sp a.toNat = none ∧
    ∃ u, memRead sp a t = .ok (Config.unwrittenByte (s.draws + 1), u)

/-- THE MODEL'S CHOICE (notes/assumptions/5.md, after R55): an access beyond the storage the host has provided is refused, by
the engine's accesses and by the host's. -/
def Obligations.AccessBeyondTheStorageIsRefused : Prop :=
  ∀ (sp : Space) (a : Addr) (v : Byte) (s : State), s.host.extents.of sp ≤ a.toNat →
    memRead sp a s = .error (.outsideExtent sp) ∧ memWrite sp a v s = .error (.outsideExtent sp) ∧
    ∀ rest, engineOwns s sp a = false →
      (s.host.script = .fill sp a v :: rest → step s = .refused (.outsideExtent sp)) ∧
      (s.host.script = .read sp a :: rest → step s = .refused (.outsideExtent sp))

/-- The ownership window: it opens over exactly the ranges of R48 when an EMBED or an EXTRACT starts, the host has no move on an
address in it, and the handshake closes it (R48, R52). -/
def Obligations.HostHasNoMoveOnTheCommandsRanges : Prop :=
  (∀ (s t : State) (d : Degree) (len cnt : Len) (a : Addr), admissible d len cnt = true →
    (exec (.embed d.field len cnt) s = .next t →
      (engineOwns t .img a = true ↔ a < len) ∧ (engineOwns t .sym a = true ↔ a < cnt) ∧
      (engineOwns t .out a = true ↔ a < len)) ∧
    (exec (.extract d.field len cnt) s = .next t →
      (engineOwns t .img a = true ↔ 54 ≤ a.toNat ∧ a.toNat < 54 + cnt.toNat * d.steps) ∧
      (engineOwns t .sym a = true ↔ a < cnt) ∧ engineOwns t .out a = false)) ∧
  (∀ (s : State) (sp : Space) (a : Addr) (v : Byte) (rest : List HostMove), engineOwns s sp a = true →
    (s.host.script = .fill sp a v :: rest → step s = .refused (.hostInWindow sp)) ∧
    (s.host.script = .read sp a :: rest → step s = .refused (.hostInWindow sp))) ∧
  (∀ (s : State) (sp : Space) (a : Addr), engineOwns (takeResponse s) sp a = false)

/-- The host fills a byte it owns: the byte reads as written, every other byte of every space as before, and no register of the
engine changes (R144). -/
def Obligations.HostFillsAByteItOwns : Prop :=
  ∀ (s : State) (sp : Space) (a : Addr) (v : Byte) (rest : List HostMove), s.host.script = .fill sp a v :: rest →
    engineOwns s sp a = false → s.inExtent sp a = true →
    ∃ t, step s = .next t ∧ t = (s.begin rest).setSpace sp (Memory.write (s.space sp) a.toNat v) ∧
      t.byteAt sp a.toNat = some v ∧ ∀ sp' i, (sp' ≠ sp ∨ i ≠ a.toNat) → t.byteAt sp' i = s.byteAt sp' i

/-- The host reads a written byte it owns: it sees the byte last written, and nothing else changes (R47, R144). The list
`host.seen` is the model's record of what the host reads (notes/assumptions/19.md). -/
def Obligations.HostReadsTheByteLastWritten : Prop :=
  ∀ (s : State) (sp : Space) (a : Addr) (v : Byte) (rest : List HostMove), s.host.script = .read sp a :: rest →
    engineOwns s sp a = false → s.inExtent sp a = true → s.byteAt sp a.toNat = some v →
    step s = .next { s.begin rest with host := { s.host with script := rest, seen := s.host.seen ++ [v] } }

/-- A run step is always enabled: in every state of the invariant with `PHASE = RUN`, `rst` low and the command's storage
provided, a clock edge gives a next state, whatever the bytes (R138). -/
def Obligations.RunStepIsAlwaysEnabled : Prop :=
  ∀ (s : State) (rest : List HostMove) (d : Degree), Inv s → EdgeNext s rest → s.phase = .run → s.pins.rst = false →
    Degree.ofField s.deg = some d →
    ((s.op = 0x3 ∧ EmbedStorage s s.len s.cnt) ∨ (s.op = 0x4 ∧ ExtractStorage s d s.cnt)) →
    ∃ t, step s = .next t ∧ (t.phase = .run ∨ t.phase = .resp)

/-! ## Errors, reset, invariants (`60_exceptions.md`, `70_reset_and_hazards.md`, `10_state.md`) -/

/-- Priority: non-zero `RSV` or a reserved opcode gives `InvalidCommand` whatever else is wrong, then an illegal degree
`InvalidDegree`, then the capacity error of the command (R155). -/
def Obligations.ErrorsComeInTheStatedPriority : Prop :=
  ∀ (cmd : Cmd) (s : State),
    ((rsvField cmd ≠ 0 ∨ opField cmd = 0x0 ∨ 0x5 ≤ opField cmd) →
      acceptStep cmd s = .next { s with rsp := 0x0000000004, phase := .resp }) ∧
    (¬ (rsvField cmd ≠ 0 ∨ opField cmd = 0x0 ∨ 0x5 ≤ opField cmd) → Degree.ofField (degField cmd) = none →
      acceptStep cmd s = .next { s with rsp := 0x0000000001, phase := .resp }) ∧
    (∀ d, rsvField cmd = 0 → Degree.ofField (degField cmd) = some d → admissible d (lenField cmd) (cntField cmd) = false →
      (opField cmd = 0x3 → acceptStep cmd s = .next { s with rsp := 0x0000000002, phase := .resp }) ∧
      (opField cmd = 0x4 → acceptStep cmd s = .next { s with rsp := 0x0000000003, phase := .resp }))

/-- What an error does: `RSP` takes the code with `VALUE` and `NONE` zero, `PHASE` becomes `RESP`, and nothing else changes
(R156). -/
def Obligations.ErrorHasNoEffectButItsResponse : Prop :=
  ∀ (cmd : Cmd) (s t : State), acceptStep cmd s = .next t → t.phase = .resp → codeField t.rsp ≠ 0 →
    t = { s with rsp := t.rsp, phase := .resp } ∧ valueField t.rsp = 0 ∧ noneFlag t.rsp = false ∧
    zeroField t.rsp = 0 ∧ codeField t.rsp ≤ 4

/-- At a clock edge with `rst` high the engine takes the reset state from any phase: `PHASE = IDLE` and every other register 0;
the spaces keep every byte; no transaction is made; the command port is not ready before the edge or after it, and no response
is valid after it (R170, R171). The host receives the waiting response exactly if `rsp_valid` and `rsp_ready` are both 1 at that
edge (R142), else it is lost (R172); `rsp_valid` is not said in `PHASE = RESP` with `rst` high, where R142 and R170 differ and
the model has a free value (notes/assumptions/8.md). That the bytes of an abandoned run stay is the model's inference, whatever
R172 asks of the host (notes/assumptions/16.md). The model's flag of the ownership window is left open here; the invariant says
that it is down in `IDLE`. -/
def Obligations.ResetTakesTheResetState : Prop :=
  ∀ (s : State) (rest : List HostMove), EdgeNext s rest → s.pins.rst = true →
    cmdReady s = false ∧ (s.phase ≠ .resp → rspValid s = false) ∧
    ∃ t, step s = .next t ∧ cmdReady t = false ∧ rspValid t = false ∧
    ∃ lent : Bool, t = { s.begin rest with
      phase := .idle
      op := 0
      deg := 0
      len := 0
      cnt := 0
      textMask := 0x00
      imgMask := 0x00
      cur := 0
      sidx := 0
      chunk := 0
      shr := 0x00
      acc := 0x00
      rsp := 0
      bus := []
      host := { s.host with
        script := rest
        received := if rspValid s = true ∧ s.pins.rspReady = true then s.host.received ++ [s.rsp] else s.host.received
        lent := lent } }

/-- The reset state holds the values the spec states: `PHASE = IDLE`, every other register 0; nobody has written any byte of
any space (R24, R171). -/
def Obligations.ResetStateHoldsTheStatedValues : Prop :=
  State.reset.phase = .idle ∧ State.reset.op = 0 ∧ State.reset.deg = 0 ∧ State.reset.len = 0 ∧ State.reset.cnt = 0 ∧
  State.reset.textMask = 0x00 ∧ State.reset.imgMask = 0x00 ∧ State.reset.cur = 0 ∧ State.reset.sidx = 0 ∧
  State.reset.chunk = 0 ∧ State.reset.shr = 0x00 ∧ State.reset.acc = 0x00 ∧ State.reset.rsp = 0 ∧
  rspValid State.reset = false ∧ ∀ sp i, State.reset.byteAt sp i = none

/-- The invariant holds at reset. -/
def Obligations.ResetMeetsTheInvariant : Prop := Inv State.reset

/-- Every step keeps the invariant, the host's moves and reset included: canonical spaces, a well-formed response,
`SIDX <= CNT` and `CUR <= LEN` at all times, and during a run the masks of the degree, an admissible count and
`CUR = 54 + SIDX * STEPS + CHUNK` in the body (R10, R12, R13, R14, R17, R52, R67, R94). -/
def Obligations.EveryStepKeepsTheInvariant : Prop :=
  ∀ s t : State, Inv s → step s = .next t → Inv t

/-- The machine is never stuck: no step from a state of the invariant is a fault, and the host's moves and the extents are the
only sources of a refusal. -/
def Obligations.NoFaultFromTheInvariant : Prop :=
  ∀ s : State, Inv s → (∀ f, step s ≠ .fault f) ∧
    (∀ r, step s = .refused r → (∃ sp, r = .hostInWindow sp) ∨ ∃ sp, r = .outsideExtent sp)

/-- Termination: every descriptor on the port of a waiting engine with whole storage is answered after finitely many steps, at
most `LEN + 2`, whatever it is and whatever the buffers hold, by exactly one response of legal form (R183, R184). -/
def Obligations.EveryDescriptorIsAnswered : Prop :=
  ∀ (s : State) (cmd : Cmd), Presents s cmd → s.host.extents = .whole →
    ∃ n t, 1 ≤ n ∧ n ≤ (lenField cmd).toNat + 2 ∧ stepN n s = .next t ∧ t.phase = .resp ∧ ResponseFormed t.rsp ∧
      ∀ m u, 1 ≤ m → m < n → stepN m s = .next u → u.phase = .run
end

