-- ==== Sys2Proof/Laws/State.lean ====
section
/-! SUPPORT. What each named update of the state does to each field, one lemma per field per update, so that no proof has
to unfold an update. -/

namespace Sys2Proof.Machine

section

@[simp] theorem setSpace_phase (sp : Space) (m : Memory) (s : State) : (s.setSpace sp m).phase = s.phase := by cases sp <;> rfl
@[simp] theorem setSpace_op (sp : Space) (m : Memory) (s : State) : (s.setSpace sp m).op = s.op := by cases sp <;> rfl
@[simp] theorem setSpace_deg (sp : Space) (m : Memory) (s : State) : (s.setSpace sp m).deg = s.deg := by cases sp <;> rfl
@[simp] theorem setSpace_len (sp : Space) (m : Memory) (s : State) : (s.setSpace sp m).len = s.len := by cases sp <;> rfl
@[simp] theorem setSpace_cnt (sp : Space) (m : Memory) (s : State) : (s.setSpace sp m).cnt = s.cnt := by cases sp <;> rfl
@[simp] theorem setSpace_textMask (sp : Space) (m : Memory) (s : State) : (s.setSpace sp m).textMask = s.textMask := by cases sp <;> rfl
@[simp] theorem setSpace_imgMask (sp : Space) (m : Memory) (s : State) : (s.setSpace sp m).imgMask = s.imgMask := by cases sp <;> rfl
@[simp] theorem setSpace_cur (sp : Space) (m : Memory) (s : State) : (s.setSpace sp m).cur = s.cur := by cases sp <;> rfl
@[simp] theorem setSpace_sidx (sp : Space) (m : Memory) (s : State) : (s.setSpace sp m).sidx = s.sidx := by cases sp <;> rfl
@[simp] theorem setSpace_chunk (sp : Space) (m : Memory) (s : State) : (s.setSpace sp m).chunk = s.chunk := by cases sp <;> rfl
@[simp] theorem setSpace_shr (sp : Space) (m : Memory) (s : State) : (s.setSpace sp m).shr = s.shr := by cases sp <;> rfl
@[simp] theorem setSpace_acc (sp : Space) (m : Memory) (s : State) : (s.setSpace sp m).acc = s.acc := by cases sp <;> rfl
@[simp] theorem setSpace_rsp (sp : Space) (m : Memory) (s : State) : (s.setSpace sp m).rsp = s.rsp := by cases sp <;> rfl
@[simp] theorem setSpace_pins (sp : Space) (m : Memory) (s : State) : (s.setSpace sp m).pins = s.pins := by cases sp <;> rfl
@[simp] theorem setSpace_bus (sp : Space) (m : Memory) (s : State) : (s.setSpace sp m).bus = s.bus := by cases sp <;> rfl
@[simp] theorem setSpace_draws (sp : Space) (m : Memory) (s : State) : (s.setSpace sp m).draws = s.draws := by cases sp <;> rfl
@[simp] theorem setSpace_host (sp : Space) (m : Memory) (s : State) : (s.setSpace sp m).host = s.host := by cases sp <;> rfl

end

/-- A replaced space reads as what replaced it. -/
@[simp] theorem setSpace_space_same (sp : Space) (m : Memory) (s : State) : (s.setSpace sp m).space sp = m := by
  cases sp <;> rfl

/-- The other spaces are untouched. -/
theorem setSpace_space_other {sp sp' : Space} (h : sp' ≠ sp) (m : Memory) (s : State) :
    (s.setSpace sp m).space sp' = s.space sp' := by
  cases sp <;> cases sp' <;> first | rfl | exact absurd rfl h

@[simp] theorem setSpace_img_eq (m : Memory) (s : State) : s.setSpace .img m = { s with img := m } := rfl
@[simp] theorem setSpace_sym_eq (m : Memory) (s : State) : s.setSpace .sym m = { s with sym := m } := rfl
@[simp] theorem setSpace_out_eq (m : Memory) (s : State) : s.setSpace .out m = { s with out := m } := rfl
@[simp] theorem space_img (s : State) : s.space .img = s.img := rfl
@[simp] theorem space_sym (s : State) : s.space .sym = s.sym := rfl
@[simp] theorem space_out (s : State) : s.space .out = s.out := rfl

section

@[simp] theorem onBus_phase (x : Access) (s : State) : (s.onBus x).phase = s.phase := rfl
@[simp] theorem onBus_op (x : Access) (s : State) : (s.onBus x).op = s.op := rfl
@[simp] theorem onBus_deg (x : Access) (s : State) : (s.onBus x).deg = s.deg := rfl
@[simp] theorem onBus_len (x : Access) (s : State) : (s.onBus x).len = s.len := rfl
@[simp] theorem onBus_cnt (x : Access) (s : State) : (s.onBus x).cnt = s.cnt := rfl
@[simp] theorem onBus_textMask (x : Access) (s : State) : (s.onBus x).textMask = s.textMask := rfl
@[simp] theorem onBus_imgMask (x : Access) (s : State) : (s.onBus x).imgMask = s.imgMask := rfl
@[simp] theorem onBus_cur (x : Access) (s : State) : (s.onBus x).cur = s.cur := rfl
@[simp] theorem onBus_sidx (x : Access) (s : State) : (s.onBus x).sidx = s.sidx := rfl
@[simp] theorem onBus_chunk (x : Access) (s : State) : (s.onBus x).chunk = s.chunk := rfl
@[simp] theorem onBus_shr (x : Access) (s : State) : (s.onBus x).shr = s.shr := rfl
@[simp] theorem onBus_acc (x : Access) (s : State) : (s.onBus x).acc = s.acc := rfl
@[simp] theorem onBus_rsp (x : Access) (s : State) : (s.onBus x).rsp = s.rsp := rfl
@[simp] theorem onBus_img (x : Access) (s : State) : (s.onBus x).img = s.img := rfl
@[simp] theorem onBus_sym (x : Access) (s : State) : (s.onBus x).sym = s.sym := rfl
@[simp] theorem onBus_out (x : Access) (s : State) : (s.onBus x).out = s.out := rfl
@[simp] theorem onBus_pins (x : Access) (s : State) : (s.onBus x).pins = s.pins := rfl
@[simp] theorem onBus_bus (x : Access) (s : State) : (s.onBus x).bus = s.bus ++ [x] := rfl
@[simp] theorem onBus_draws (x : Access) (s : State) : (s.onBus x).draws = s.draws := rfl
@[simp] theorem onBus_host (x : Access) (s : State) : (s.onBus x).host = s.host := rfl

end

section

@[simp] theorem respond_phase (code : Code) (none : Bool) (value : BitVec 32) (s : State) : (respond code none value s).phase = .resp := rfl
@[simp] theorem respond_op (code : Code) (none : Bool) (value : BitVec 32) (s : State) : (respond code none value s).op = s.op := rfl
@[simp] theorem respond_deg (code : Code) (none : Bool) (value : BitVec 32) (s : State) : (respond code none value s).deg = s.deg := rfl
@[simp] theorem respond_len (code : Code) (none : Bool) (value : BitVec 32) (s : State) : (respond code none value s).len = s.len := rfl
@[simp] theorem respond_cnt (code : Code) (none : Bool) (value : BitVec 32) (s : State) : (respond code none value s).cnt = s.cnt := rfl
@[simp] theorem respond_textMask (code : Code) (none : Bool) (value : BitVec 32) (s : State) : (respond code none value s).textMask = s.textMask := rfl
@[simp] theorem respond_imgMask (code : Code) (none : Bool) (value : BitVec 32) (s : State) : (respond code none value s).imgMask = s.imgMask := rfl
@[simp] theorem respond_cur (code : Code) (none : Bool) (value : BitVec 32) (s : State) : (respond code none value s).cur = s.cur := rfl
@[simp] theorem respond_sidx (code : Code) (none : Bool) (value : BitVec 32) (s : State) : (respond code none value s).sidx = s.sidx := rfl
@[simp] theorem respond_chunk (code : Code) (none : Bool) (value : BitVec 32) (s : State) : (respond code none value s).chunk = s.chunk := rfl
@[simp] theorem respond_shr (code : Code) (none : Bool) (value : BitVec 32) (s : State) : (respond code none value s).shr = s.shr := rfl
@[simp] theorem respond_acc (code : Code) (none : Bool) (value : BitVec 32) (s : State) : (respond code none value s).acc = s.acc := rfl
@[simp] theorem respond_rsp (code : Code) (none : Bool) (value : BitVec 32) (s : State) : (respond code none value s).rsp = responseWord code none value := rfl
@[simp] theorem respond_img (code : Code) (none : Bool) (value : BitVec 32) (s : State) : (respond code none value s).img = s.img := rfl
@[simp] theorem respond_sym (code : Code) (none : Bool) (value : BitVec 32) (s : State) : (respond code none value s).sym = s.sym := rfl
@[simp] theorem respond_out (code : Code) (none : Bool) (value : BitVec 32) (s : State) : (respond code none value s).out = s.out := rfl
@[simp] theorem respond_pins (code : Code) (none : Bool) (value : BitVec 32) (s : State) : (respond code none value s).pins = s.pins := rfl
@[simp] theorem respond_bus (code : Code) (none : Bool) (value : BitVec 32) (s : State) : (respond code none value s).bus = s.bus := rfl
@[simp] theorem respond_draws (code : Code) (none : Bool) (value : BitVec 32) (s : State) : (respond code none value s).draws = s.draws := rfl
@[simp] theorem respond_host (code : Code) (none : Bool) (value : BitVec 32) (s : State) : (respond code none value s).host = s.host := rfl

end

/-- Error entry is a response with `NONE` and `VALUE` zero. -/
@[simp] theorem raiseError_eq_respond (code : Code) (s : State) : raiseError code s = respond code false 0 s := rfl

/-- Completion is a response with the carrier count. -/
@[simp] theorem completeRun_eq_respond (d : Degree) (s : State) :
    completeRun d s = respond .ok false (carrierCount d s.cnt) s := rfl

section

@[simp] theorem takeResponse_phase (s : State) : (takeResponse s).phase = .idle := rfl
@[simp] theorem takeResponse_op (s : State) : (takeResponse s).op = s.op := rfl
@[simp] theorem takeResponse_deg (s : State) : (takeResponse s).deg = s.deg := rfl
@[simp] theorem takeResponse_len (s : State) : (takeResponse s).len = s.len := rfl
@[simp] theorem takeResponse_cnt (s : State) : (takeResponse s).cnt = s.cnt := rfl
@[simp] theorem takeResponse_textMask (s : State) : (takeResponse s).textMask = s.textMask := rfl
@[simp] theorem takeResponse_imgMask (s : State) : (takeResponse s).imgMask = s.imgMask := rfl
@[simp] theorem takeResponse_cur (s : State) : (takeResponse s).cur = s.cur := rfl
@[simp] theorem takeResponse_sidx (s : State) : (takeResponse s).sidx = s.sidx := rfl
@[simp] theorem takeResponse_chunk (s : State) : (takeResponse s).chunk = s.chunk := rfl
@[simp] theorem takeResponse_shr (s : State) : (takeResponse s).shr = s.shr := rfl
@[simp] theorem takeResponse_acc (s : State) : (takeResponse s).acc = s.acc := rfl
@[simp] theorem takeResponse_rsp (s : State) : (takeResponse s).rsp = s.rsp := rfl
@[simp] theorem takeResponse_img (s : State) : (takeResponse s).img = s.img := rfl
@[simp] theorem takeResponse_sym (s : State) : (takeResponse s).sym = s.sym := rfl
@[simp] theorem takeResponse_out (s : State) : (takeResponse s).out = s.out := rfl
@[simp] theorem takeResponse_pins (s : State) : (takeResponse s).pins = s.pins := rfl
@[simp] theorem takeResponse_bus (s : State) : (takeResponse s).bus = s.bus := rfl
@[simp] theorem takeResponse_draws (s : State) : (takeResponse s).draws = s.draws := rfl
@[simp] theorem takeResponse_host (s : State) : (takeResponse s).host = { s.host with received := s.host.received ++ [s.rsp], lent := false } := rfl

end

section

@[simp] theorem resetEngine_phase (s : State) : (resetEngine s).phase = .idle := rfl
@[simp] theorem resetEngine_op (s : State) : (resetEngine s).op = 0 := rfl
@[simp] theorem resetEngine_deg (s : State) : (resetEngine s).deg = 0 := rfl
@[simp] theorem resetEngine_len (s : State) : (resetEngine s).len = 0 := rfl
@[simp] theorem resetEngine_cnt (s : State) : (resetEngine s).cnt = 0 := rfl
@[simp] theorem resetEngine_textMask (s : State) : (resetEngine s).textMask = 0 := rfl
@[simp] theorem resetEngine_imgMask (s : State) : (resetEngine s).imgMask = 0 := rfl
@[simp] theorem resetEngine_cur (s : State) : (resetEngine s).cur = 0 := rfl
@[simp] theorem resetEngine_sidx (s : State) : (resetEngine s).sidx = 0 := rfl
@[simp] theorem resetEngine_chunk (s : State) : (resetEngine s).chunk = 0 := rfl
@[simp] theorem resetEngine_shr (s : State) : (resetEngine s).shr = 0 := rfl
@[simp] theorem resetEngine_acc (s : State) : (resetEngine s).acc = 0 := rfl
@[simp] theorem resetEngine_rsp (s : State) : (resetEngine s).rsp = 0 := rfl
@[simp] theorem resetEngine_img (s : State) : (resetEngine s).img = s.img := rfl
@[simp] theorem resetEngine_sym (s : State) : (resetEngine s).sym = s.sym := rfl
@[simp] theorem resetEngine_out (s : State) : (resetEngine s).out = s.out := rfl
@[simp] theorem resetEngine_pins (s : State) : (resetEngine s).pins = s.pins := rfl
@[simp] theorem resetEngine_bus (s : State) : (resetEngine s).bus = s.bus := rfl
@[simp] theorem resetEngine_draws (s : State) : (resetEngine s).draws = s.draws := rfl
@[simp] theorem resetEngine_host (s : State) : (resetEngine s).host = { s.host with lent := false } := rfl

end

section

@[simp] theorem startRun_phase (op : BitVec 4) (d : Degree) (len cnt : Len) (cur0 : Addr) (s : State) : (startRun op d len cnt cur0 s).phase = .run := rfl
@[simp] theorem startRun_op (op : BitVec 4) (d : Degree) (len cnt : Len) (cur0 : Addr) (s : State) : (startRun op d len cnt cur0 s).op = op := rfl
@[simp] theorem startRun_deg (op : BitVec 4) (d : Degree) (len cnt : Len) (cur0 : Addr) (s : State) : (startRun op d len cnt cur0 s).deg = d.field := rfl
@[simp] theorem startRun_len (op : BitVec 4) (d : Degree) (len cnt : Len) (cur0 : Addr) (s : State) : (startRun op d len cnt cur0 s).len = len := rfl
@[simp] theorem startRun_cnt (op : BitVec 4) (d : Degree) (len cnt : Len) (cur0 : Addr) (s : State) : (startRun op d len cnt cur0 s).cnt = cnt := rfl
@[simp] theorem startRun_textMask (op : BitVec 4) (d : Degree) (len cnt : Len) (cur0 : Addr) (s : State) : (startRun op d len cnt cur0 s).textMask = textMaskOf d := rfl
@[simp] theorem startRun_imgMask (op : BitVec 4) (d : Degree) (len cnt : Len) (cur0 : Addr) (s : State) : (startRun op d len cnt cur0 s).imgMask = imgMaskOf d := rfl
@[simp] theorem startRun_cur (op : BitVec 4) (d : Degree) (len cnt : Len) (cur0 : Addr) (s : State) : (startRun op d len cnt cur0 s).cur = cur0 := rfl
@[simp] theorem startRun_sidx (op : BitVec 4) (d : Degree) (len cnt : Len) (cur0 : Addr) (s : State) : (startRun op d len cnt cur0 s).sidx = 0 := rfl
@[simp] theorem startRun_chunk (op : BitVec 4) (d : Degree) (len cnt : Len) (cur0 : Addr) (s : State) : (startRun op d len cnt cur0 s).chunk = 0 := rfl
@[simp] theorem startRun_shr (op : BitVec 4) (d : Degree) (len cnt : Len) (cur0 : Addr) (s : State) : (startRun op d len cnt cur0 s).shr = s.shr := rfl
@[simp] theorem startRun_acc (op : BitVec 4) (d : Degree) (len cnt : Len) (cur0 : Addr) (s : State) : (startRun op d len cnt cur0 s).acc = s.acc := rfl
@[simp] theorem startRun_rsp (op : BitVec 4) (d : Degree) (len cnt : Len) (cur0 : Addr) (s : State) : (startRun op d len cnt cur0 s).rsp = s.rsp := rfl
@[simp] theorem startRun_img (op : BitVec 4) (d : Degree) (len cnt : Len) (cur0 : Addr) (s : State) : (startRun op d len cnt cur0 s).img = s.img := rfl
@[simp] theorem startRun_sym (op : BitVec 4) (d : Degree) (len cnt : Len) (cur0 : Addr) (s : State) : (startRun op d len cnt cur0 s).sym = s.sym := rfl
@[simp] theorem startRun_out (op : BitVec 4) (d : Degree) (len cnt : Len) (cur0 : Addr) (s : State) : (startRun op d len cnt cur0 s).out = s.out := rfl
@[simp] theorem startRun_pins (op : BitVec 4) (d : Degree) (len cnt : Len) (cur0 : Addr) (s : State) : (startRun op d len cnt cur0 s).pins = s.pins := rfl
@[simp] theorem startRun_bus (op : BitVec 4) (d : Degree) (len cnt : Len) (cur0 : Addr) (s : State) : (startRun op d len cnt cur0 s).bus = s.bus := rfl
@[simp] theorem startRun_draws (op : BitVec 4) (d : Degree) (len cnt : Len) (cur0 : Addr) (s : State) : (startRun op d len cnt cur0 s).draws = s.draws := rfl
@[simp] theorem startRun_host (op : BitVec 4) (d : Degree) (len cnt : Len) (cur0 : Addr) (s : State) : (startRun op d len cnt cur0 s).host = { s.host with lent := true } := rfl

end

section

@[simp] theorem begin_phase (rest : List HostMove) (s : State) : (s.begin rest).phase = s.phase := rfl
@[simp] theorem begin_op (rest : List HostMove) (s : State) : (s.begin rest).op = s.op := rfl
@[simp] theorem begin_deg (rest : List HostMove) (s : State) : (s.begin rest).deg = s.deg := rfl
@[simp] theorem begin_len (rest : List HostMove) (s : State) : (s.begin rest).len = s.len := rfl
@[simp] theorem begin_cnt (rest : List HostMove) (s : State) : (s.begin rest).cnt = s.cnt := rfl
@[simp] theorem begin_textMask (rest : List HostMove) (s : State) : (s.begin rest).textMask = s.textMask := rfl
@[simp] theorem begin_imgMask (rest : List HostMove) (s : State) : (s.begin rest).imgMask = s.imgMask := rfl
@[simp] theorem begin_cur (rest : List HostMove) (s : State) : (s.begin rest).cur = s.cur := rfl
@[simp] theorem begin_sidx (rest : List HostMove) (s : State) : (s.begin rest).sidx = s.sidx := rfl
@[simp] theorem begin_chunk (rest : List HostMove) (s : State) : (s.begin rest).chunk = s.chunk := rfl
@[simp] theorem begin_shr (rest : List HostMove) (s : State) : (s.begin rest).shr = s.shr := rfl
@[simp] theorem begin_acc (rest : List HostMove) (s : State) : (s.begin rest).acc = s.acc := rfl
@[simp] theorem begin_rsp (rest : List HostMove) (s : State) : (s.begin rest).rsp = s.rsp := rfl
@[simp] theorem begin_img (rest : List HostMove) (s : State) : (s.begin rest).img = s.img := rfl
@[simp] theorem begin_sym (rest : List HostMove) (s : State) : (s.begin rest).sym = s.sym := rfl
@[simp] theorem begin_out (rest : List HostMove) (s : State) : (s.begin rest).out = s.out := rfl
@[simp] theorem begin_pins (rest : List HostMove) (s : State) : (s.begin rest).pins = s.pins := rfl
@[simp] theorem begin_bus (rest : List HostMove) (s : State) : (s.begin rest).bus = [] := rfl
@[simp] theorem begin_draws (rest : List HostMove) (s : State) : (s.begin rest).draws = s.draws := rfl
@[simp] theorem begin_host (rest : List HostMove) (s : State) : (s.begin rest).host = { s.host with script := rest } := rfl

end

section

@[simp] theorem advanceChunk_phase (d : Degree) (s : State) : (advanceChunk d s).phase = s.phase := by unfold advanceChunk; split <;> simp_all
@[simp] theorem advanceChunk_op (d : Degree) (s : State) : (advanceChunk d s).op = s.op := by unfold advanceChunk; split <;> simp_all
@[simp] theorem advanceChunk_deg (d : Degree) (s : State) : (advanceChunk d s).deg = s.deg := by unfold advanceChunk; split <;> simp_all
@[simp] theorem advanceChunk_len (d : Degree) (s : State) : (advanceChunk d s).len = s.len := by unfold advanceChunk; split <;> simp_all
@[simp] theorem advanceChunk_cnt (d : Degree) (s : State) : (advanceChunk d s).cnt = s.cnt := by unfold advanceChunk; split <;> simp_all
@[simp] theorem advanceChunk_textMask (d : Degree) (s : State) : (advanceChunk d s).textMask = s.textMask := by unfold advanceChunk; split <;> simp_all
@[simp] theorem advanceChunk_imgMask (d : Degree) (s : State) : (advanceChunk d s).imgMask = s.imgMask := by unfold advanceChunk; split <;> simp_all
@[simp] theorem advanceChunk_cur (d : Degree) (s : State) : (advanceChunk d s).cur = s.cur := by unfold advanceChunk; split <;> simp_all
@[simp] theorem advanceChunk_sidx (d : Degree) (s : State) : (advanceChunk d s).sidx = if s.lastChunk d then s.sidx + 1 else s.sidx := by unfold advanceChunk; split <;> simp_all
@[simp] theorem advanceChunk_chunk (d : Degree) (s : State) : (advanceChunk d s).chunk = if s.lastChunk d then 0 else s.chunk + 1 := by unfold advanceChunk; split <;> simp_all
@[simp] theorem advanceChunk_shr (d : Degree) (s : State) : (advanceChunk d s).shr = s.shr := by unfold advanceChunk; split <;> simp_all
@[simp] theorem advanceChunk_acc (d : Degree) (s : State) : (advanceChunk d s).acc = s.acc := by unfold advanceChunk; split <;> simp_all
@[simp] theorem advanceChunk_rsp (d : Degree) (s : State) : (advanceChunk d s).rsp = s.rsp := by unfold advanceChunk; split <;> simp_all
@[simp] theorem advanceChunk_img (d : Degree) (s : State) : (advanceChunk d s).img = s.img := by unfold advanceChunk; split <;> simp_all
@[simp] theorem advanceChunk_sym (d : Degree) (s : State) : (advanceChunk d s).sym = s.sym := by unfold advanceChunk; split <;> simp_all
@[simp] theorem advanceChunk_out (d : Degree) (s : State) : (advanceChunk d s).out = s.out := by unfold advanceChunk; split <;> simp_all
@[simp] theorem advanceChunk_pins (d : Degree) (s : State) : (advanceChunk d s).pins = s.pins := by unfold advanceChunk; split <;> simp_all
@[simp] theorem advanceChunk_bus (d : Degree) (s : State) : (advanceChunk d s).bus = s.bus := by unfold advanceChunk; split <;> simp_all
@[simp] theorem advanceChunk_draws (d : Degree) (s : State) : (advanceChunk d s).draws = s.draws := by unfold advanceChunk; split <;> simp_all
@[simp] theorem advanceChunk_host (d : Degree) (s : State) : (advanceChunk d s).host = s.host := by unfold advanceChunk; split <;> simp_all

end

end Sys2Proof.Machine
end

