-- ==== Sys2Proof/Laws/Memory.lean ====
section
/-! SUPPORT. The laws of one buffer space: reading after writing, and the canonical form that every write keeps. -/

namespace Sys2Proof.Machine

/-- Reading where a byte was just written gives that byte. -/
@[simp] theorem read_write_same (m : Memory) (a : Nat) (v : Byte) : (Memory.write m a v).read a = some v := by
  induction m with
  | nil => simp [Memory.write, Memory.read]
  | cons c m ih =>
    obtain ⟨b, w⟩ := c
    unfold Memory.write
    split
    · simp [Memory.read]
    · split
      · simp [Memory.read]
      · simp [Memory.read, *]

/-- A write leaves every other address as it was. -/
theorem read_write_other (m : Memory) {a b : Nat} (v : Byte) (h : b ≠ a) : (Memory.write m a v).read b = Memory.read m b := by
  induction m with
  | nil => simp [Memory.write, Memory.read, h]
  | cons c m ih =>
    obtain ⟨k, w⟩ := c
    unfold Memory.write
    split
    · simp [Memory.read, h]
    · split
      · subst_vars; simp [Memory.read, h]
      · simp [Memory.read, ih]

/-- Reading after a write, both cases at once. -/
theorem read_write (m : Memory) (a b : Nat) (v : Byte) :
    (Memory.write m a v).read b = if b = a then some v else Memory.read m b := by
  split
  · subst_vars; exact read_write_same m _ v
  · exact read_write_other m v ‹_›

/-- The empty space is in canonical form. -/
@[simp] theorem wf_nil : Memory.wf [] = true := rfl

/-- The canonical form from a lower address on holds from any lower one. -/
theorem wfFrom_mono {m : Memory} {lo lo' : Nat} (hle : lo' ≤ lo) (h : Memory.wfFrom lo m = true) :
    Memory.wfFrom lo' m = true := by
  cases m with
  | nil => rfl
  | cons c m =>
    obtain ⟨b, w⟩ := c
    simp only [Memory.wfFrom, Bool.and_eq_true, decide_eq_true_eq] at h ⊢
    exact ⟨⟨le_trans hle h.1.1, h.1.2⟩, h.2⟩

/-- A write keeps the canonical form from an address on. -/
theorem wfFrom_write {m : Memory} {lo a : Nat} (v : Byte) (ha : a < 2 ^ 32) (hlo : lo ≤ a)
    (h : Memory.wfFrom lo m = true) : (Memory.write m a v).wfFrom lo = true := by
  induction m generalizing lo with
  | nil => simp [Memory.write, Memory.wfFrom, hlo]; omega
  | cons c m ih =>
    obtain ⟨b, w⟩ := c
    simp only [Memory.wfFrom, Bool.and_eq_true, decide_eq_true_eq] at h
    unfold Memory.write
    split
    · simp only [Memory.wfFrom, Bool.and_eq_true, decide_eq_true_eq]
      exact ⟨⟨hlo, ha⟩, ⟨by omega, h.1.2⟩, h.2⟩
    · split
      · subst_vars
        simp only [Memory.wfFrom, Bool.and_eq_true, decide_eq_true_eq]
        exact ⟨⟨hlo, ha⟩, h.2⟩
      · simp only [Memory.wfFrom, Bool.and_eq_true, decide_eq_true_eq]
        exact ⟨h.1, ih (by omega) h.2⟩

/-- Every write inside the 32-bit space keeps the canonical form. -/
theorem wf_write {m : Memory} (a : Addr) (v : Byte) (h : Memory.wf m = true) : (Memory.write m a.toNat v).wf = true :=
  wfFrom_write v a.isLt (Nat.zero_le _) h

/-- Every space of the reset state is in canonical form. -/
theorem reset_memories_wf : MemoriesWf State.reset := ⟨rfl, rfl, rfl⟩

end Sys2Proof.Machine
end

