-- ==== Sys2Proof/Laws/Operands.lean ====
section
/-! SUPPORT. The small facts about degrees and their constants. -/

namespace Sys2Proof.Machine

@[simp] theorem ofField_field (d : Degree) : Degree.ofField d.field = some d := by cases d <;> rfl

/-- A field that holds a legal degree is that degree's field. -/
theorem field_of_ofField {deg : DegField} {d : Degree} (h : Degree.ofField deg = some d) : deg = d.field := by
  revert h; revert deg; cases d <;> decide

/-- `STEPS(d) * d = 8` (R6). -/
theorem steps_mul_bits (d : Degree) : d.steps * d.bits = 8 := by cases d <;> rfl

/-- There is at least one step for a symbol. -/
theorem steps_pos (d : Degree) : 0 < d.steps := by cases d <;> decide

/-- There are at most eight. -/
theorem steps_le (d : Degree) : d.steps ≤ 8 := by cases d <;> decide

/-- The field of a degree is its number. -/
@[simp] theorem field_toNat (d : Degree) : d.field.toNat = d.bits := by cases d <;> rfl

end Sys2Proof.Machine
end

