-- ==== Sys2Proof/Laws/Bits.lean ====
section
/-! SUPPORT. The bits of the two words the engine speaks in, said once: a descriptor (`30_encoding.md` rule R61) and a
response (rule R67). -/

namespace Sys2Proof.Machine

/-- The bits of a response word (R67). -/
theorem responseWord_getLsbD (code : Code) (none : Bool) (value : BitVec 32) (i : Nat) :
    (responseWord code none value).getLsbD i =
      if i < 4 then code.number.getLsbD i else if i < 5 then none else if i < 8 then false else value.getLsbD (i - 8) := by
  have h : (responseWord code none value).getLsbD i =
      BitVec.getLsbD (w := 32 + 3 + 1 + 4) (value ++ 0#3 ++ BitVec.ofBool none ++ code.number) i := rfl
  rw [h, BitVec.getLsbD_append, BitVec.getLsbD_append, BitVec.getLsbD_append]
  by_cases h4 : i < 4
  · simp [h4]
  · by_cases h5 : i < 5
    · obtain rfl : i = 4 := by omega
      simp
    · by_cases h8 : i < 8
      · simp [h4, h5, h8, show ¬ i - 4 < 1 by omega, show i - 4 - 1 < 3 by omega]
      · simp [h4, h5, h8, show ¬ i - 4 < 1 by omega, show ¬ i - 4 - 1 < 3 by omega, show i - 4 - 1 - 3 = i - 8 by omega]
/-- The bits of a descriptor (R61). -/
theorem descriptor_getLsbD (op : BitVec 4) (deg : DegField) (len cnt : Len) (i : Nat) :
    (descriptor op deg len cnt).getLsbD i =
      if i < 4 then op.getLsbD i else if i < 8 then deg.getLsbD (i - 4) else if i < 32 then false
      else if i < 64 then len.getLsbD (i - 32) else cnt.getLsbD (i - 64) := by
  have h : (descriptor op deg len cnt).getLsbD i =
      BitVec.getLsbD (w := 32 + 32 + 24 + 4 + 4) (cnt ++ len ++ 0#24 ++ deg ++ op) i := rfl
  rw [h, BitVec.getLsbD_append, BitVec.getLsbD_append, BitVec.getLsbD_append, BitVec.getLsbD_append]
  by_cases h4 : i < 4
  · simp [h4]
  · by_cases h8 : i < 8
    · simp [h4, h8, show i - 4 < 4 by omega]
    · by_cases h32 : i < 32
      · simp [h4, h8, h32, show ¬ i - 4 < 4 by omega, show i - 4 - 4 < 24 by omega]
      · by_cases h64 : i < 64
        · simp [h4, h8, h32, h64, show ¬ i - 4 < 4 by omega, show ¬ i - 4 - 4 < 24 by omega,
            show i - 32 < 32 by omega, show i - 4 - 4 - 24 = i - 32 by omega]
        · simp [h4, h8, h32, h64, show ¬ i - 4 < 4 by omega, show ¬ i - 4 - 4 < 24 by omega,
            show ¬ i - 4 - 4 - 24 < 32 by omega, show i - 4 - 4 - 24 - 32 = i - 64 by omega]

end Sys2Proof.Machine
end

