-- ==== Sys2Proof/Laws/Ops.lean ====
section
/-! SUPPORT. For each shared operation over memory and registers, one lemma that says once everything it can do; the proofs
about steps cite these instead of unfolding the operations. -/

namespace Sys2Proof.Machine

/-- A read of a written byte returns it and leaves the state as it is. -/
theorem draw_of_written {s : State} {sp : Space} {a : Addr} {v : Byte} (h : s.byteAt sp a.toNat = some v) :
    s.draw sp a = (v, s) := by
  simp [State.draw, h]

/-- A read of an unwritten byte returns the next free draw and counts it. -/
theorem draw_of_unwritten {s : State} {sp : Space} {a : Addr} (h : s.byteAt sp a.toNat = none) :
    s.draw sp a = (Config.unwrittenByte s.draws, { s with draws := s.draws + 1 }) := by
  simp [State.draw, h]

/-- A read changes nothing but the count of free draws. -/
theorem draw_state (s : State) (sp : Space) (a : Addr) :
    (s.draw sp a).2 = { s with draws := (s.draw sp a).2.draws } := by
  unfold State.draw; split <;> rfl

/-- `MemRead`, where there is storage: the drawn byte, with the transaction on the bus. -/
theorem memRead_ok {sp : Space} {a : Addr} {s : State} (h : s.inExtent sp a = true) :
    memRead sp a s = .ok ((s.draw sp a).1,
      { s with draws := (s.draw sp a).2.draws, bus := s.bus ++ [⟨sp, .read, a, (s.draw sp a).1⟩] }) := by
  rw [memRead, if_pos h, State.onBus, draw_state]

/-- `MemRead` beyond the storage is refused. -/
theorem memRead_refused {sp : Space} {a : Addr} {s : State} (h : s.inExtent sp a = false) :
    memRead sp a s = .error (.outsideExtent sp) := by
  simp [memRead, h]

/-- Everything a successful `MemRead` can do. -/
theorem memRead_cases {sp : Space} {a : Addr} {s : State} {r : Byte × State} (h : memRead sp a s = .ok r) :
    s.inExtent sp a = true ∧ r = ((s.draw sp a).1,
      { s with draws := (s.draw sp a).2.draws, bus := s.bus ++ [⟨sp, .read, a, (s.draw sp a).1⟩] }) := by
  cases hx : s.inExtent sp a with
  | false => rw [memRead_refused hx] at h; cases h
  | true => rw [memRead_ok hx] at h; exact ⟨rfl, (Except.ok.inj h).symm⟩

/-- `MemWrite`, where there is storage: the byte stored, with the transaction on the bus. -/
theorem memWrite_ok {sp : Space} {a : Addr} {v : Byte} {s : State} (h : s.inExtent sp a = true) :
    memWrite sp a v s =
      .ok ((s.setSpace sp (Memory.write (s.space sp) a.toNat v)).onBus ⟨sp, .write, a, v⟩) := by
  simp [memWrite, h]

/-- `MemWrite` beyond the storage is refused. -/
theorem memWrite_refused {sp : Space} {a : Addr} {v : Byte} {s : State} (h : s.inExtent sp a = false) :
    memWrite sp a v s = .error (.outsideExtent sp) := by
  simp [memWrite, h]

/-- Everything a successful `MemWrite` can do. -/
theorem memWrite_cases {sp : Space} {a : Addr} {v : Byte} {s t : State} (h : memWrite sp a v s = .ok t) :
    s.inExtent sp a = true ∧ t = (s.setSpace sp (Memory.write (s.space sp) a.toNat v)).onBus ⟨sp, .write, a, v⟩ := by
  cases hx : s.inExtent sp a with
  | false => rw [memWrite_refused hx] at h; cases h
  | true => rw [memWrite_ok hx] at h; exact ⟨rfl, (Except.ok.inj h).symm⟩

/-- Two accesses in a row: the first succeeds, then the second does. -/
theorem bind_ok {α β : Type} {x : Except Refusal α} {f : α → Except Refusal β} {b : β} (h : x >>= f = .ok b) :
    ∃ a, x = .ok a ∧ f a = .ok b := by
  cases x with
  | error r => cases h
  | ok a => exact ⟨a, rfl, h⟩

/-- The first access of two, taken. -/
@[simp] theorem ok_bind {α β : Type} (a : α) (f : α → Except Refusal β) : (Except.ok a >>= f) = f a := rfl

/-- A step that makes accesses answers a next state exactly when every access succeeds. -/
@[simp] theorem outcomeOf_next_iff {x : Except Refusal State} {t : State} : outcomeOf x = .next t ↔ x = .ok t := by
  cases x <;> simp [outcomeOf]

/-- Such a step never ends in a fault. -/
theorem outcomeOf_ne_fault (x : Except Refusal State) (f : Fault) : outcomeOf x ≠ .fault f := by
  cases x <;> simp [outcomeOf]

/-- Where there is storage does not depend on anything but the extents. -/
theorem inExtent_congr {s t : State} (h : t.host.extents = s.host.extents) (sp : Space) (a : Addr) :
    t.inExtent sp a = s.inExtent sp a := by
  simp [State.inExtent, h]

/-- Storage for the first `n` bytes is storage at every address below `n`. -/
theorem inExtent_of_provides {s : State} {sp : Space} {n : Nat} {a : Addr} (h : Provides s sp n) (ha : a.toNat < n) :
    s.inExtent sp a = true := by
  simp only [State.inExtent, decide_eq_true_eq]
  exact lt_of_lt_of_le ha h

/-- The byte a read returns depends on the space and the draws alone. -/
theorem draw_congr {s t : State} {sp : Space} (a : Addr) (h : t.space sp = s.space sp) (hd : t.draws = s.draws) :
    (t.draw sp a).1 = (s.draw sp a).1 ∧ (t.draw sp a).2.draws = (s.draw sp a).2.draws := by
  have hb : t.byteAt sp a.toNat = s.byteAt sp a.toNat := by simp [State.byteAt, h]
  cases hx : s.byteAt sp a.toNat with
  | none => rw [draw_of_unwritten hx, draw_of_unwritten (hb.trans hx), hd]; exact ⟨rfl, rfl⟩
  | some v => rw [draw_of_written hx, draw_of_written (hb.trans hx), hd]; exact ⟨rfl, rfl⟩

/-- A byte copy where there is storage. -/
theorem copyByte_ok {s : State} (hx : s.inExtent .img s.cur = true) (hy : s.inExtent .out s.cur = true) :
    copyByte s = .ok { s with
      out := Memory.write s.out s.cur.toNat (s.draw .img s.cur).1
      cur := s.cur + 1
      draws := (s.draw .img s.cur).2.draws
      bus := s.bus ++ [⟨.img, .read, s.cur, (s.draw .img s.cur).1⟩] ++ [⟨.out, .write, s.cur, (s.draw .img s.cur).1⟩] } := by
  unfold copyByte
  rw [memRead_ok hx, ok_bind]
  dsimp only
  rw [memWrite_ok (by exact hy), ok_bind]
  rfl

/-- A successful byte copy, whole (R103, R105). -/
theorem copyByte_cases {s t : State} (h : copyByte s = .ok t) :
    s.inExtent .img s.cur = true ∧ s.inExtent .out s.cur = true ∧
    t = { s with
      out := Memory.write s.out s.cur.toNat (s.draw .img s.cur).1
      cur := s.cur + 1
      draws := (s.draw .img s.cur).2.draws
      bus := s.bus ++ [⟨.img, .read, s.cur, (s.draw .img s.cur).1⟩] ++ [⟨.out, .write, s.cur, (s.draw .img s.cur).1⟩] } := by
  obtain ⟨r, hr, h⟩ := bind_ok h
  obtain ⟨hx, rfl⟩ := memRead_cases hr
  obtain ⟨s2, hw, h⟩ := bind_ok h
  obtain ⟨hy, rfl⟩ := memWrite_cases hw
  cases h
  exact ⟨hx, hy, rfl⟩

/-- Fetching the symbol of a body step, whole (R104): it changes the count of draws and the bus, nothing else. -/
theorem embedSymbol_cases {s : State} {r : Byte × State} (h : embedSymbol s = .ok r) :
    (s.chunk = 0 ∧ s.inExtent .sym s.sidx = true ∧ r = ((s.draw .sym s.sidx).1,
      { s with
        draws := (s.draw .sym s.sidx).2.draws
        bus := s.bus ++ [⟨.sym, .read, s.sidx, (s.draw .sym s.sidx).1⟩] })) ∨
    (s.chunk ≠ 0 ∧ r = (s.shr, s)) := by
  unfold embedSymbol at h
  split at h
  · exact .inl ⟨‹_›, memRead_cases h⟩
  · exact .inr ⟨‹_›, (Except.ok.inj h).symm⟩

/-- A successful EMBED body step, whole (R104): the symbol `sv` and the pixel byte `px` it used, and the state it leaves. -/
theorem embedBodyStep_cases {d : Degree} {s t : State} (h : embedBodyStep d s = .ok t) :
    ∃ sv s1, embedSymbol s = .ok (sv, s1) ∧ s.inExtent .img s.cur = true ∧ s.inExtent .out s.cur = true ∧
    t = advanceChunk d { s1 with
      out := Memory.write s.out s.cur.toNat (((s1.draw .img s.cur).1 &&& s.imgMask) ||| ((sv &&& s.textMask) >>> d.shamt))
      shr := sv <<< d.bits
      cur := s.cur + 1
      draws := (s1.draw .img s.cur).2.draws
      bus := s1.bus ++ [⟨.img, .read, s.cur, (s1.draw .img s.cur).1⟩] ++ [⟨.out, .write, s.cur,
        ((s1.draw .img s.cur).1 &&& s.imgMask) ||| ((sv &&& s.textMask) >>> d.shamt)⟩] } := by
  obtain ⟨⟨sv, s1⟩, hs, h⟩ := bind_ok h
  obtain ⟨r, hr, h⟩ := bind_ok h
  obtain ⟨hx, rfl⟩ := memRead_cases hr
  obtain ⟨s3, hw, h⟩ := bind_ok h
  obtain ⟨hy, rfl⟩ := memWrite_cases hw
  cases h
  refine ⟨sv, s1, hs, ?_⟩
  obtain ⟨-, -, hp⟩ | ⟨-, hp⟩ := embedSymbol_cases hs
  · cases hp; exact ⟨hx, hy, rfl⟩
  · cases hp; exact ⟨hx, hy, rfl⟩

/-- An EMBED body step where there is storage and the symbol has been fetched. -/
theorem embedBodyStep_ok {d : Degree} {s s1 : State} {sv : Byte} (hs : embedSymbol s = .ok (sv, s1))
    (hx : s.inExtent .img s.cur = true) (hy : s.inExtent .out s.cur = true) :
    embedBodyStep d s = .ok (advanceChunk d { s1 with
      out := Memory.write s.out s.cur.toNat (((s1.draw .img s.cur).1 &&& s.imgMask) ||| ((sv &&& s.textMask) >>> d.shamt))
      shr := sv <<< d.bits
      cur := s.cur + 1
      draws := (s1.draw .img s.cur).2.draws
      bus := s1.bus ++ [⟨.img, .read, s.cur, (s1.draw .img s.cur).1⟩] ++ [⟨.out, .write, s.cur,
        ((s1.draw .img s.cur).1 &&& s.imgMask) ||| ((sv &&& s.textMask) >>> d.shamt)⟩] }) := by
  have he : s1.host.extents = s.host.extents ∧ s1.out = s.out := by
    obtain ⟨-, -, hp⟩ | ⟨-, hp⟩ := embedSymbol_cases hs <;> cases hp <;> exact ⟨rfl, rfl⟩
  unfold embedBodyStep
  rw [hs, ok_bind]
  dsimp only
  rw [memRead_ok ((inExtent_congr he.1 _ _).trans hx), ok_bind]
  dsimp only
  rw [memWrite_ok (by exact (inExtent_congr he.1 _ _).trans hy), ok_bind, ← he.2]
  rfl

/-- An EXTRACT body step within a symbol, where there is storage. -/
theorem extractBodyStep_ok_within {d : Degree} {s : State} (hl : s.lastChunk d = false)
    (hx : s.inExtent .img s.cur = true) :
    extractBodyStep d s = .ok { s with
      acc := accumulate d s (s.draw .img s.cur).1
      cur := s.cur + 1
      chunk := s.chunk + 1
      draws := (s.draw .img s.cur).2.draws
      bus := s.bus ++ [⟨.img, .read, s.cur, (s.draw .img s.cur).1⟩] } := by
  have hl' : ¬ s.chunk.toNat + 1 = d.steps := by simpa [State.lastChunk] using hl
  unfold extractBodyStep
  rw [memRead_ok hx, ok_bind]
  simp [advanceChunk, State.lastChunk, hl']
  rfl

/-- An EXTRACT body step that finishes a symbol, where there is storage. -/
theorem extractBodyStep_ok_last {d : Degree} {s : State} (hl : s.lastChunk d = true)
    (hx : s.inExtent .img s.cur = true) (hy : s.inExtent .sym s.sidx = true) :
    extractBodyStep d s = .ok { s with
      sym := Memory.write s.sym s.sidx.toNat (accumulate d s (s.draw .img s.cur).1)
      acc := 0
      cur := s.cur + 1
      chunk := 0
      sidx := s.sidx + 1
      draws := (s.draw .img s.cur).2.draws
      bus := s.bus ++ [⟨.img, .read, s.cur, (s.draw .img s.cur).1⟩]
        ++ [⟨.sym, .write, s.sidx, accumulate d s (s.draw .img s.cur).1⟩] } := by
  have hl' : s.chunk.toNat + 1 = d.steps := by simpa [State.lastChunk] using hl
  unfold extractBodyStep
  rw [memRead_ok hx, ok_bind]
  dsimp only
  rw [if_pos hl, memWrite_ok (by exact hy), ok_bind]
  simp [advanceChunk, State.lastChunk, State.onBus, hl']
  rfl

/-- A successful EXTRACT body step, whole (R123): it finishes a symbol and writes it, or it gathers on. -/
theorem extractBodyStep_cases {d : Degree} {s t : State} (h : extractBodyStep d s = .ok t) :
    s.inExtent .img s.cur = true ∧
    ((s.lastChunk d = true ∧ s.inExtent .sym s.sidx = true ∧
      t = { s with
        sym := Memory.write s.sym s.sidx.toNat (accumulate d s (s.draw .img s.cur).1)
        acc := 0
        cur := s.cur + 1
        chunk := 0
        sidx := s.sidx + 1
        draws := (s.draw .img s.cur).2.draws
        bus := s.bus ++ [⟨.img, .read, s.cur, (s.draw .img s.cur).1⟩]
          ++ [⟨.sym, .write, s.sidx, accumulate d s (s.draw .img s.cur).1⟩] }) ∨
     (s.lastChunk d = false ∧
      t = { s with
        acc := accumulate d s (s.draw .img s.cur).1
        cur := s.cur + 1
        chunk := s.chunk + 1
        draws := (s.draw .img s.cur).2.draws
        bus := s.bus ++ [⟨.img, .read, s.cur, (s.draw .img s.cur).1⟩] })) := by
  obtain ⟨r, hr, h⟩ := bind_ok h
  obtain ⟨hx, rfl⟩ := memRead_cases hr
  refine ⟨hx, ?_⟩
  cases hl : s.lastChunk d with
  | true =>
    simp only [hl, if_true] at h
    obtain ⟨s2, hw, h⟩ := bind_ok h
    obtain ⟨hy, rfl⟩ := memWrite_cases hw
    cases h
    refine .inl ⟨rfl, hy, ?_⟩
    have : s.chunk.toNat + 1 = d.steps := by simpa [State.lastChunk] using hl
    simp [advanceChunk, State.lastChunk, State.onBus, this]
  | false =>
    simp only [hl] at h
    cases h
    refine .inr ⟨rfl, ?_⟩
    have : ¬ s.chunk.toNat + 1 = d.steps := by simpa [State.lastChunk] using hl
    simp [advanceChunk, State.lastChunk, this]

end Sys2Proof.Machine
end

