-- ==== Sys2Proof/Laws/PerInstr.lean ====
section
/-! SUPPORT. Per-instruction families: what is said of every command, one lemma per constructor. -/

namespace Sys2Proof.Laws.RowMatch

open Sys2Proof.Machine

/-- The encoding of a command matches its row of the opcode table: `(cmd & mask) = match` (`30_encoding.md` rule R68). -/
def Statement (i : Instr) : Prop := encode i &&& rowMask = rowMatch i

/-- A bit of the row mask: the `OP` and `RSV` bits. -/
theorem rowMask_getLsbD (j : Nat) (h : j < 96) : rowMask.getLsbD j = (decide (j < 4) || (decide (8 ≤ j) && decide (j < 32))) := by
  revert j; decide

/-- A descriptor with `RSV` zero, masked, is its opcode. -/
theorem descriptor_and_rowMask (op : BitVec 4) (deg : DegField) (len cnt : Len) :
    descriptor op deg len cnt &&& rowMask = op.setWidth 96 := by
  apply BitVec.eq_of_getLsbD_eq
  intro j hj
  rw [BitVec.getLsbD_and, descriptor_getLsbD, rowMask_getLsbD j hj, BitVec.getLsbD_setWidth]
  by_cases h4 : j < 4
  · simp [h4, hj]
  · have hop : op.getLsbD j = false := BitVec.getLsbD_of_ge _ _ (by omega)
    by_cases h8 : j < 8
    · simp [h4, show ¬ 8 ≤ j by omega, hop]
    · by_cases h32 : j < 32
      · simp [h4, h8, h32, hop]
      · simp [h4, h32, hop]

theorem masks (deg : DegField) : Statement (.masks deg) := descriptor_and_rowMask _ deg 0 0

theorem capacity (deg : DegField) (len : Len) : Statement (.capacity deg len) := descriptor_and_rowMask _ deg len 0

theorem embed (deg : DegField) (len cnt : Len) : Statement (.embed deg len cnt) := descriptor_and_rowMask _ deg len cnt

theorem extract (deg : DegField) (len cnt : Len) : Statement (.extract deg len cnt) := descriptor_and_rowMask _ deg len cnt

end Sys2Proof.Laws.RowMatch
end

