-- ==== Sys2Proof/Laws/Step.lean ====
section
/-! SUPPORT. What a step can do, said once: one inversion lemma for each function between `step` and the meanings. -/

namespace Sys2Proof.Machine

/-- A step that comes to a clock edge is that edge. -/
theorem step_of_edgeNext {s : State} {rest : List HostMove} (h : EdgeNext s rest) :
    step s = clockEdge (s.begin rest) := by
  obtain h | ⟨h, rfl⟩ := h <;> simp [step, advance, h, hostMove]

/-- What a successful fill does. -/
theorem hostFill_cases {sp : Space} {a : Addr} {v : Byte} {s t : State} (h : hostFill sp a v s = .next t) :
    engineOwns s sp a = false ∧ s.inExtent sp a = true ∧
      t = s.setSpace sp (Memory.write (s.space sp) a.toNat v) := by
  unfold hostFill at h
  split at h
  · cases h
  · split at h
    · cases h; exact ⟨by simpa using ‹¬ engineOwns s sp a = true›, ‹_›, rfl⟩
    · cases h

/-- What a successful host read does. -/
theorem hostRead_cases {sp : Space} {a : Addr} {s t : State} (h : hostRead sp a s = .next t) :
    engineOwns s sp a = false ∧ s.inExtent sp a = true ∧
      t = { s with
        draws := (s.draw sp a).2.draws
        host := { s.host with seen := s.host.seen ++ [(s.draw sp a).1] } } := by
  unfold hostRead at h
  split at h
  · cases h
  · split at h
    · rw [draw_state] at h
      cases h; exact ⟨by simpa using ‹¬ engineOwns s sp a = true›, ‹_›, rfl⟩
    · cases h

/-- What providing storage does. -/
theorem hostProvide_cases {sp : Space} {n : Nat} {s t : State} (h : hostProvide sp n s = .next t) :
    s.host.lent = false ∧ t = { s with host := { s.host with extents := s.host.extents.update sp n } } := by
  unfold hostProvide at h
  split at h
  · cases h
  · cases h; exact ⟨by simpa using ‹¬ s.host.lent = true›, rfl⟩

/-- Everything a step that answers a next state can do: a move of the host, or a clock edge. -/
theorem step_cases {s t : State} (h : step s = .next t) :
    (∃ p rest, s.host.script = .drive p :: rest ∧ t = { s.begin rest with pins := p }) ∨
    (∃ sp a v rest, s.host.script = .fill sp a v :: rest ∧ hostFill sp a v (s.begin rest) = .next t) ∨
    (∃ sp a rest, s.host.script = .read sp a :: rest ∧ hostRead sp a (s.begin rest) = .next t) ∨
    (∃ sp n rest, s.host.script = .provide sp n :: rest ∧ hostProvide sp n (s.begin rest) = .next t) ∨
    (∃ rest, EdgeNext s rest ∧ clockEdge (s.begin rest) = .next t) := by
  unfold step advance at h
  cases hs : s.host.script with
  | nil => rw [hs] at h; exact .inr (.inr (.inr (.inr ⟨[], .inr ⟨hs, rfl⟩, h⟩)))
  | cons m rest =>
    rw [hs] at h
    cases m with
    | drive p => cases h; exact .inl ⟨p, rest, rfl, rfl⟩
    | fill sp a v => exact .inr (.inl ⟨sp, a, v, rest, rfl, h⟩)
    | read sp a => exact .inr (.inr (.inl ⟨sp, a, rest, rfl, h⟩))
    | provide sp n => exact .inr (.inr (.inr (.inl ⟨sp, n, rest, rfl, h⟩)))
    | edge => exact .inr (.inr (.inr (.inr ⟨rest, .inl hs, h⟩)))

/-- With `rst` low the host takes the response exactly in `RESP` with `rsp_ready` at 1 (R142). -/
theorem rspTaken_of_rst_low {s : State} (hr : s.pins.rst = false) : rspTaken s = (s.phase == .resp && s.pins.rspReady) := by
  simp [rspTaken, rspValid, hr]

/-- Beginning a step changes no output line. -/
@[simp] theorem rspValid_begin (s : State) (rest : List HostMove) : rspValid (s.begin rest) = rspValid s := rfl

@[simp] theorem rspTaken_begin (s : State) (rest : List HostMove) : rspTaken (s.begin rest) = rspTaken s := rfl

/-- Outside `RESP` the host takes no response, whatever the free value. -/
theorem rspTaken_of_not_resp {s : State} (hp : s.phase ≠ .resp) : rspTaken s = false := by
  simp [rspTaken, rspValid, hp]

/-- What a reset edge does: the reset state, with at most the waiting response handed over (R142, R170). -/
theorem resetEdge_eq (s : State) : resetEdge s = { resetEngine s with
    host := { s.host with
      received := if rspTaken s then s.host.received ++ [s.rsp] else s.host.received
      lent := false } } := by
  unfold resetEdge; split <;> rfl

/-- Everything a clock edge that answers a next state can do (R135, R170). -/
theorem clockEdge_cases {s t : State} (h : clockEdge s = .next t) :
    (s.pins.rst = true ∧ t = resetEdge s) ∨
    (s.pins.rst = false ∧ s.phase = .idle ∧ s.pins.cmdValid = true ∧ acceptStep s.pins.cmdData s = .next t) ∨
    (s.pins.rst = false ∧ s.phase = .run ∧ runStep s = .next t) ∨
    (s.pins.rst = false ∧ s.phase = .resp ∧ s.pins.rspReady = true ∧ t = takeResponse s) ∨
    (s.pins.rst = false ∧ t = s ∧
      ((s.phase = .idle ∧ s.pins.cmdValid = false) ∨ (s.phase = .resp ∧ s.pins.rspReady = false))) := by
  unfold clockEdge at h
  cases hr : s.pins.rst with
  | true => rw [hr] at h; cases h; exact .inl ⟨rfl, rfl⟩
  | false =>
    rw [hr] at h
    refine .inr ?_
    cases hp : s.phase with
    | run => rw [hp] at h; exact .inr (.inl ⟨rfl, rfl, h⟩)
    | idle =>
      rw [hp] at h
      cases hv : s.pins.cmdValid with
      | true => rw [hv] at h; exact .inl ⟨rfl, rfl, rfl, h⟩
      | false => rw [hv] at h; cases h; exact .inr (.inr (.inr ⟨rfl, rfl, .inl ⟨rfl, rfl⟩⟩))
    | resp =>
      simp only [rspTaken_of_rst_low hr, hp, beq_self_eq_true, Bool.true_and] at h
      cases hy : s.pins.rspReady with
      | true => rw [hy] at h; cases h; exact .inr (.inr (.inl ⟨rfl, rfl, rfl, rfl⟩))
      | false => rw [hy] at h; cases h; exact .inr (.inr (.inr ⟨rfl, rfl, .inr ⟨rfl, rfl⟩⟩))

/-- Everything an accept step can do: answer with a code of 0 to 4 (an error with `VALUE` and `NONE` zero), or start a run
whose count is admissible (R137). -/
theorem acceptStep_cases {cmd : Cmd} {s t : State} (h : acceptStep cmd s = .next t) :
    (∃ code, code ≠ .ok ∧ t = raiseError code s) ∨
    (∃ none value, t = respond .ok none value s) ∨
    (∃ d len cnt, admissible d len cnt = true ∧ t = startRun 0x3 d len cnt 0 s) ∨
    (∃ d len cnt, admissible d len cnt = true ∧
      t = { startRun 0x4 d len cnt (BitVec.ofNat 32 Config.headerSize) s with acc := 0 }) := by
  unfold acceptStep at h
  split at h
  · cases h; exact .inl ⟨_, by decide, rfl⟩
  · rename_i i _
    cases i with
    | masks deg =>
      simp only [exec, execMasks] at h
      split at h <;> cases h
      · exact .inl ⟨_, by decide, rfl⟩
      · exact .inr (.inl ⟨_, _, rfl⟩)
    | capacity deg len =>
      simp only [exec, execCapacity] at h
      split at h
      · cases h; exact .inl ⟨_, by decide, rfl⟩
      · split at h <;> cases h <;> exact .inr (.inl ⟨_, _, rfl⟩)
    | embed deg len cnt =>
      simp only [exec, execEmbed] at h
      split at h
      · cases h; exact .inl ⟨_, by decide, rfl⟩
      · split at h <;> cases h
        · exact .inr (.inr (.inl ⟨_, _, _, ‹_›, rfl⟩))
        · exact .inl ⟨_, by decide, rfl⟩
    | extract deg len cnt =>
      simp only [exec, execExtract] at h
      split at h
      · cases h; exact .inl ⟨_, by decide, rfl⟩
      · split at h <;> cases h
        · exact .inr (.inr (.inr ⟨_, _, _, ‹_›, rfl⟩))
        · exact .inl ⟨_, by decide, rfl⟩

/-- An accept step always answers a next state. -/
theorem acceptStep_next (cmd : Cmd) (s : State) : ∃ t, acceptStep cmd s = .next t := by
  unfold acceptStep
  split
  · exact ⟨_, rfl⟩
  · rename_i i _
    cases i with
    | masks deg => simp only [exec, execMasks]; split <;> exact ⟨_, rfl⟩
    | capacity deg len =>
      simp only [exec, execCapacity]
      split
      · exact ⟨_, rfl⟩
      · split <;> exact ⟨_, rfl⟩
    | embed deg len cnt =>
      simp only [exec, execEmbed]
      split
      · exact ⟨_, rfl⟩
      · split <;> exact ⟨_, rfl⟩
    | extract deg len cnt =>
      simp only [exec, execExtract]
      split
      · exact ⟨_, rfl⟩
      · split <;> exact ⟨_, rfl⟩

/-- Everything a run step that answers a next state can do (R138), with the degree in flight and the three bounds of U15. -/
theorem runStep_cases {s t : State} (h : runStep s = .next t) :
    ∃ d, Degree.ofField s.deg = some d ∧ s.chunk.toNat < d.steps ∧ s.sidx ≤ s.cnt ∧ s.cur ≤ s.len ∧
    ((s.op = 0x3 ∧ s.cur.toNat < Config.headerSize ∧ copyByte s = .ok t) ∨
     (s.op = 0x3 ∧ Config.headerSize ≤ s.cur.toNat ∧ s.sidx < s.cnt ∧ embedBodyStep d s = .ok t) ∨
     (s.op = 0x3 ∧ Config.headerSize ≤ s.cur.toNat ∧ s.sidx = s.cnt ∧ s.cur < s.len ∧ copyByte s = .ok t) ∨
     (s.op = 0x3 ∧ Config.headerSize ≤ s.cur.toNat ∧ s.sidx = s.cnt ∧ s.cur = s.len ∧ t = completeRun d s) ∨
     (s.op = 0x4 ∧ s.sidx < s.cnt ∧ extractBodyStep d s = .ok t) ∨
     (s.op = 0x4 ∧ s.sidx = s.cnt ∧ t = completeRun d s)) := by
  unfold runStep at h
  split at h
  · cases h
  · rename_i d hd
    refine ⟨d, hd, ?_⟩
    split at h
    · rename_i hr
      simp only [runRegistersInRange, Bool.and_eq_true, decide_eq_true_eq] at hr
      obtain ⟨⟨hc, hs⟩, hl⟩ := hr
      refine ⟨hc, hs, hl, ?_⟩
      split at h
      · rename_i ho
        rw [outcomeOf_next_iff] at h
        unfold embedRunStep at h
        split at h
        · exact .inl ⟨ho, ‹_›, h⟩
        · have h54 : Config.headerSize ≤ s.cur.toNat := by omega
          split at h
          · exact .inr (.inl ⟨ho, h54, ‹_›, h⟩)
          · have hsc : s.sidx = s.cnt := by bv_omega
            split at h
            · exact .inr (.inr (.inl ⟨ho, h54, hsc, ‹_›, h⟩))
            · cases h
              exact .inr (.inr (.inr (.inl ⟨ho, h54, hsc, by bv_omega, rfl⟩)))
      · split at h
        · rename_i ho
          rw [outcomeOf_next_iff] at h
          unfold extractRunStep at h
          split at h
          · exact .inr (.inr (.inr (.inr (.inl ⟨ho, ‹_›, h⟩))))
          · cases h
            exact .inr (.inr (.inr (.inr (.inr ⟨ho, by bv_omega, rfl⟩))))
        · cases h
    · cases h

/-- The edge of an engine in `RUN` is its run step. -/
theorem clockEdge_run {s : State} (hr : s.pins.rst = false) (hp : s.phase = .run) : clockEdge s = runStep s := by
  simp [clockEdge, hr, hp]

/-- The edge of a waiting engine with a descriptor on its port is the accept step. -/
theorem clockEdge_accept {s : State} (hr : s.pins.rst = false) (hp : s.phase = .idle) (hv : s.pins.cmdValid = true) :
    clockEdge s = acceptStep s.pins.cmdData s := by
  simp [clockEdge, hr, hp, hv]

/-- The edge at which the host takes the response. -/
theorem clockEdge_handshake {s : State} (hr : s.pins.rst = false) (hp : s.phase = .resp) (hy : s.pins.rspReady = true) :
    clockEdge s = .next (takeResponse s) := by
  simp [clockEdge, rspTaken_of_rst_low, hr, hp, hy]

/-- The edge of an engine in reset. -/
theorem clockEdge_reset {s : State} (hr : s.pins.rst = true) : clockEdge s = .next (resetEdge s) := by
  simp [clockEdge, hr]

/-- What a running state says of its registers, in the form the run step checks. -/
theorem runRegistersInRange_iff {d : Degree} {s : State} :
    runRegistersInRange d s = true ↔ s.chunk.toNat < d.steps ∧ s.sidx ≤ s.cnt ∧ s.cur ≤ s.len := by
  simp [runRegistersInRange, and_assoc]

/-- The run step of an EMBED in the ranges of U15. -/
theorem runStep_embed {d : Degree} {s : State} (hd : Degree.ofField s.deg = some d) (hc : s.chunk.toNat < d.steps)
    (hs : s.sidx ≤ s.cnt) (hl : s.cur ≤ s.len) (ho : s.op = 0x3) : runStep s = outcomeOf (embedRunStep d s) := by
  simp [runStep, hd, runRegistersInRange_iff.mpr ⟨hc, hs, hl⟩, ho]

/-- The run step of an EXTRACT in the ranges of U15. -/
theorem runStep_extract {d : Degree} {s : State} (hd : Degree.ofField s.deg = some d) (hc : s.chunk.toNat < d.steps)
    (hs : s.sidx ≤ s.cnt) (hl : s.cur ≤ s.len) (ho : s.op = 0x4) : runStep s = outcomeOf (extractRunStep d s) := by
  simp [runStep, hd, runRegistersInRange_iff.mpr ⟨hc, hs, hl⟩, ho]

/-- EMBED's step in the header (R103). -/
theorem embedRunStep_header {d : Degree} {s : State} (h : s.cur.toNat < Config.headerSize) :
    embedRunStep d s = copyByte s := by
  rw [embedRunStep, if_pos h, embedHeaderStep]

/-- EMBED's step in the body (R104). -/
theorem embedRunStep_body {d : Degree} {s : State} (h : Config.headerSize ≤ s.cur.toNat) (hs : s.sidx < s.cnt) :
    embedRunStep d s = embedBodyStep d s := by
  rw [embedRunStep, if_neg (by omega), if_pos hs]

/-- EMBED's step in the tail (R105). -/
theorem embedRunStep_tail {d : Degree} {s : State} (h : Config.headerSize ≤ s.cur.toNat) (hs : s.sidx = s.cnt)
    (hl : s.cur < s.len) : embedRunStep d s = copyByte s := by
  rw [embedRunStep, if_neg (by omega), if_neg (by rw [hs]; exact BitVec.lt_irrefl _), if_pos hl, embedTailStep]

/-- EMBED's completion (R106). -/
theorem embedRunStep_completion {d : Degree} {s : State} (h : Config.headerSize ≤ s.cur.toNat) (hs : s.sidx = s.cnt)
    (hl : s.cur = s.len) : embedRunStep d s = .ok (completeRun d s) := by
  rw [embedRunStep, if_neg (by omega), if_neg (by rw [hs]; exact BitVec.lt_irrefl _),
    if_neg (by rw [hl]; exact BitVec.lt_irrefl _), embedCompletionStep]

/-- EXTRACT's step in the body (R123). -/
theorem extractRunStep_body {d : Degree} {s : State} (hs : s.sidx < s.cnt) :
    extractRunStep d s = extractBodyStep d s := by
  rw [extractRunStep, if_pos hs]

/-- EXTRACT's completion (R124). -/
theorem extractRunStep_completion {d : Degree} {s : State} (hs : s.sidx = s.cnt) :
    extractRunStep d s = .ok (completeRun d s) := by
  rw [extractRunStep, if_neg (by rw [hs]; exact BitVec.lt_irrefl _), extractCompletionStep]

/-- One more step of a run. -/
theorem stepN_succ (n : Nat) {s t : State} (h : step s = .next t) : stepN (n + 1) s = stepN n t := by
  simp [stepN, h]

/-- A run in two parts. -/
theorem stepN_add {m n : Nat} {s t : State} (h : stepN m s = .next t) : stepN (m + n) s = stepN n t := by
  induction m generalizing s with
  | zero => cases h; rw [Nat.zero_add]
  | succ m ih =>
    rw [Nat.succ_add]
    simp only [stepN] at h ⊢
    split at h
    · exact ih h
    · cases h
    · cases h

end Sys2Proof.Machine
end

