-- ==== Sys2Proof/Tests/Slice0.lean ====
section
/-! SUPPORT. The model's own tests. Expected values come from the spec: 95_test_vectors.md, the worked examples of
`42_embed.md` and `43_extract.md`, and the tables of `40_masks.md` and `41_capacity.md`. The last part gives, for each
statement with hypotheses, states and operands that meet them together. -/

namespace Sys2Proof.Tests

open Sys2Proof Sys2Proof.Machine

/-! ## Source lines that cannot be encoded are refused (`30_encoding.md` rule R70) -/

theorem test_degree_16_refused : AsmLine.check (.masks 16) = .error (.degreeTooLarge 16) := by decide
theorem test_degree_15_fits : AsmLine.check (.embed 15 1000 10) = .ok () := by decide
theorem test_length_2_32_refused : AsmLine.check (.capacity 4 (2 ^ 32)) = .error (.lengthTooLarge (2 ^ 32)) := by decide
theorem test_length_below_2_32_fits : AsmLine.check (.capacity 15 (2 ^ 32 - 1)) = .ok () := by decide
theorem test_count_2_32_refused : AsmLine.check (.embed 4 1000 (2 ^ 32)) = .error (.countTooLarge (2 ^ 32)) := by decide
theorem test_extract_count_refused : AsmLine.check (.extract 4 1000 (2 ^ 32)) = .error (.countTooLarge (2 ^ 32)) := by decide
theorem test_raw_2_96_refused : AsmLine.check (.raw (2 ^ 96)) = .error (.descriptorTooLarge (2 ^ 96)) := by decide

/-! ## The assembler's text (R70; the example is the rule's own) -/

theorem test_assemble_embed : assembleText "EMBED 4, 1000, 64".toList = .ok (some 0x00000040000003E800000043) := by decide
theorem test_assemble_hex_and_comment : assembleText "MASKS 0x2 ; the masks".toList = .ok (some 0x21) := by decide
theorem test_assemble_hex_either_case :
    assembleText "CAPACITY 4, 0x3e8".toList = .ok (some 0x00000000000003E800000042) ∧
    assembleText "CAPACITY 4, 0x3E8".toList = .ok (some 0x00000000000003E800000042) := by decide
theorem test_assemble_raw :
    assembleText ".cmd 0x000000020000007100000143".toList = .ok (some 0x000000020000007100000143) := by decide
theorem test_assemble_short_raw_refused : assembleText ".cmd 0x143".toList = .error .syntaxError := by decide
theorem test_assemble_lower_case_refused : assembleText "masks 2".toList = .error .syntaxError := by decide
theorem test_assemble_degree_16_refused : assembleText "MASKS 16".toList = .error (.illFormed (.degreeTooLarge 16)) := by
  decide

/-! ## Words written out from R61: `CNT`, `LEN`, `RSV`, `DEG`, `OP` -/

theorem test_decode_masks :
    decode (0xCAFEF00D#32 ++ 0x00000007#32 ++ 0x000000#24 ++ 0b0010#4 ++ 0b0001#4) = .ok (.masks 2) := by decide
theorem test_decode_capacity :
    decode (0xDEADBEEF#32 ++ 0x000003E8#32 ++ 0x000000#24 ++ 0b0100#4 ++ 0b0010#4) = .ok (.capacity 4 1000) := by decide
theorem test_decode_embed :
    decode (0x00000040#32 ++ 0x000003E8#32 ++ 0x000000#24 ++ 0b0100#4 ++ 0b0011#4) = .ok (.embed 4 1000 64) := by decide
theorem test_decode_extract :
    decode (0x00000040#32 ++ 0x000003E8#32 ++ 0x000000#24 ++ 0b0100#4 ++ 0b0100#4) = .ok (.extract 4 1000 64) := by decide
theorem test_decode_reserved_bit_31 : decode 0x000000000000000080000001 = .error (.reservedBits 0x800000) := by decide
theorem test_decode_reserved_bit_8 : decode 0x000000000000000000000100 = .error (.reservedBits 1) := by decide
theorem test_decode_opcode_0 : decode 0 = .error (.reservedOpcode 0) := by decide
theorem test_decode_opcode_5 : decode 0x000000020000007100000045 = .error (.reservedOpcode 5) := by decide
theorem test_decode_opcode_15 : decode 0x00000000000000000000001F = .error (.reservedOpcode 15) := by decide
theorem test_descriptor_words : descriptorOfWords 0x00000043 0x000003E8 0x00000040 = 0x00000040000003E800000043 := by decide
theorem test_table_word : decodeTableWord 96 0x00000040000003E800000043 = some (.embed 4 1000 64) := by decide
theorem test_table_word_illegal : decodeTableWord 96 0x000000020000007100000143 = none := by decide

/-! ## One step from reset (95_test_vectors.md sections 2, 4, 5) -/

/-- The response waiting after an outcome, if the machine went on and one waits. -/
def responseAfter : Host.Outcome State Fault Refusal → Option Rsp
  | .next t => rspData t
  | .fault _ => none
  | .refused _ => none

/-- A field of the state after an outcome. -/
def after {α : Type} (f : State → α) : Host.Outcome State Fault Refusal → Option α
  | .next t => some (f t)
  | .fault _ => none
  | .refused _ => none

theorem test_masks_2 : responseAfter (step (State.reset.withFetchWord 96 0x21)) = some 0x0003FCC000 := by decide
theorem test_masks_3 : responseAfter (step (State.reset.withFetchWord 96 0x31)) = some 0x0000000001 := by decide
theorem test_capacity_max :
    responseAfter (step (State.reset.withFetchWord 96 0x00000000FFFFFFFF00000012)) = some 0x1FFFFFC900 := by decide
theorem test_capacity_none :
    responseAfter (step (State.reset.withFetchWord 96 0x00000000000001B000000012)) = some 0x0000000010 := by decide
theorem test_embed_exact_check_admits :
    after (·.phase) (step (State.reset.withFetchWord 96 0x000000000000006D00000043)) = some .run := by decide
theorem test_embed_check_does_not_wrap :
    responseAfter (step (State.reset.withFetchWord 96 0xFFFFFFFFFFFFFFFF00000013)) = some 0x0000000002 := by decide
theorem test_extract_starts_after_the_header :
    after (·.cur) (step (State.reset.withFetchWord 96 0x000000000000003700000084)) = some 54 := by decide
theorem test_extract_too_large :
    responseAfter (step (State.reset.withFetchWord 96 0x000000030000007100000044)) = some 0x0000000003 := by decide
theorem test_illegal_before_degree :
    responseAfter (step (State.reset.withFetchWord 96 0x000000000000000000000133)) = some 0x0000000004 := by decide

/-! ## One run step (program P1 and vector V5 of 95_test_vectors.md) -/

/-- The first `n` bytes of a space, from a function of the address. -/
def bytes (n : Nat) (f : Nat → Nat) : Memory := (List.range n).map (fun i => (i, BitVec.ofNat 8 (f i)))

/-- An EMBED in flight: `EMBED 4, 113, 2` on `IMG[i] = i`, `SYM = 48 69`, as program P1. -/
def embedding (cur sidx : Addr) (chunk : BitVec 3) (shr : Byte) : State :=
  { State.reset with
    phase := .run, op := 0x3, deg := 4, len := 113, cnt := 2, textMask := 0xF0, imgMask := 0xF0
    cur := cur, sidx := sidx, chunk := chunk, shr := shr
    img := bytes 113 id, sym := bytes 2 (fun i => if i = 0 then 0x48 else 0x69)
    host := { State.reset.host with lent := true } }

/-- An EXTRACT in flight: `EXTRACT 1, 441, 1` on the carrier bytes of vector V5. -/
def extracting (cur : Addr) (chunk : BitVec 3) (acc : Byte) : State :=
  { State.reset with
    phase := .run, op := 0x4, deg := 1, len := 441, cnt := 1, textMask := 0x80, imgMask := 0xFE
    cur := cur, sidx := 0, chunk := chunk, acc := acc
    img := [(54, 0xFF), (55, 0xFE), (56, 0xFF), (57, 0xFE), (58, 0xFE), (59, 0xFF), (60, 0xFE), (61, 0xFF)]
    host := { State.reset.host with lent := true } }

theorem test_embed_first_chunk :
    after (fun t => (t.byteAt .out 54, t.shr, t.chunk)) (step (embedding 54 0 0 0x00)) = some (some 0x34, 0x80, 1) := by
  decide
theorem test_embed_last_chunk :
    after (fun t => (t.byteAt .out 57, t.sidx, t.cur)) (step (embedding 57 1 1 0x90)) = some (some 0x39, 2, 58) := by decide
theorem test_extract_seventh_chunk : after (·.acc) (step (extracting 60 6 0x29)) = some 0x52 := by decide
theorem test_extract_last_chunk :
    after (fun t => (t.byteAt .sym 0, t.acc)) (step (extracting 61 7 0x52)) = some (some 0xA5, 0x00) := by decide

/-! ## Witnesses: the hypotheses of each statement, met together -/

/-- A waiting engine with a descriptor on its port, and the given images and symbols. -/
def waiting (cmd : Cmd) (img sym : Memory) : State := { State.reset.presenting cmd with img := img, sym := sym }

theorem waiting_presents (cmd : Cmd) (img sym : Memory) : Presents (waiting cmd img sym) cmd := ⟨rfl, rfl, rfl, rfl, rfl⟩

/-- Such an engine has whole storage. -/
theorem waiting_provides (cmd : Cmd) (img sym : Memory) (sp : Space) {n : Nat} (h : n ≤ 4294967296) :
    Provides (waiting cmd img sym) sp n := by
  cases sp <;> exact h

theorem edgeNext_reset : EdgeNext State.reset [] := .inr ⟨rfl, rfl⟩

theorem witness_illegal_reserved_bits : ∃ r, decode 0x000000000000000000000103 = .error r := ⟨.reservedBits 1, by decide⟩
theorem witness_illegal_opcode_5 : ∃ r, decode 0x5 = .error r := ⟨.reservedOpcode 5, by decide⟩
theorem witness_rsv_nonzero : rsvField 0x000000000000000080000001 ≠ 0 := by decide

theorem witness_illegal_degrees : ∀ deg ∈ ([0, 3, 5, 7, 9, 15] : List DegField), deg ≠ 1 ∧ deg ≠ 2 ∧ deg ≠ 4 ∧ deg ≠ 8 := by
  decide

theorem witness_no_room : (54 : Len).toNat * Degree.eight.bits ≤ 432 := by decide
theorem witness_least_room : 433 ≤ (433 : Len).toNat * Degree.one.bits := by decide
theorem witness_admissible : admissible .eight 55 0 = true ∧ admissible .one 441 1 = true := by decide
theorem witness_admissible_inequality : 8 * ((0 : Len).toNat + 54) < (55 : Len).toNat * Degree.eight.bits := by decide
theorem witness_not_admissible : ¬ 8 * ((0 : Len).toNat + 54) < (54 : Len).toNat * Degree.eight.bits := by decide
theorem witness_short_image : (54 : Len).toNat < 55 := by decide

theorem witness_capacity_agrees : ∃ t u v, exec (.capacity 8 55) State.reset = .next t ∧
    exec (.embed 8 55 0) State.reset = .next u ∧ exec (.extract 8 55 0) State.reset = .next v := ⟨_, _, _, rfl, rfl, rfl⟩

/-- An EMBED in flight is running wherever its cursor is in range. -/
theorem embedding_running {cur sidx : Addr} {chunk : BitVec 3} (shr : Byte) (hc : chunk.toNat < 2) (hs : sidx ≤ 2)
    (hl : cur ≤ 113) : Running (embedding cur sidx chunk shr) [] .four :=
  ⟨.inr ⟨rfl, rfl⟩, rfl, rfl, rfl, hc, hs, hl⟩

theorem witness_header_step : Running (embedding 53 0 0 0) [] .four ∧ (embedding 53 0 0 0).op = 0x3 ∧ (53 : Addr).toNat < 54 ∧
    (embedding 53 0 0 0).inExtent .img 53 = true ∧ (embedding 53 0 0 0).inExtent .out 53 = true ∧
    (embedding 53 0 0 0).byteAt .img 53 = some 53 :=
  ⟨embedding_running 0 (by decide) (by decide) (by decide), rfl, by decide, by decide, by decide, by decide⟩
theorem witness_tail_step : Running (embedding 112 2 0 0) [] .four ∧ (embedding 112 2 0 0).op = 0x3 ∧
    54 ≤ (112 : Addr).toNat ∧ (embedding 112 2 0 0).sidx = (embedding 112 2 0 0).cnt ∧
    (embedding 112 2 0 0).cur < (embedding 112 2 0 0).len ∧
    (embedding 112 2 0 0).inExtent .img 112 = true ∧ (embedding 112 2 0 0).inExtent .out 112 = true :=
  ⟨embedding_running 0 (by decide) (by decide) (by decide), rfl, by decide, by decide, by decide, by decide, by decide⟩
theorem witness_first_body_step : Running (embedding 54 0 0 0) [] .four ∧ (embedding 54 0 0 0).op = 0x3 ∧
    54 ≤ (54 : Addr).toNat ∧ (embedding 54 0 0 0).sidx < (embedding 54 0 0 0).cnt ∧
    (embedding 54 0 0 0).inExtent .sym 0 = true ∧ (embedding 54 0 0 0).inExtent .img 54 = true ∧
    (embedding 54 0 0 0).inExtent .out 54 = true ∧
    (0x48, embedding 54 0 0 0) = (if (embedding 54 0 0 0).chunk = 0 then (embedding 54 0 0 0).draw .sym 0
      else ((embedding 54 0 0 0).shr, embedding 54 0 0 0)) ∧
    54 = ((embedding 54 0 0 0).draw .img 54).1 :=
  ⟨embedding_running 0 (by decide) (by decide) (by decide), rfl, by decide, by decide, by decide, by decide, by decide,
    rfl, rfl⟩
theorem witness_later_body_step : Running (embedding 57 1 1 0x90) [] .four ∧ (embedding 57 1 1 0x90).op = 0x3 ∧
    54 ≤ (57 : Addr).toNat ∧ (embedding 57 1 1 0x90).sidx < (embedding 57 1 1 0x90).cnt ∧
    (embedding 57 1 1 0x90).inExtent .img 57 = true ∧ (embedding 57 1 1 0x90).inExtent .out 57 = true ∧
    (0x90, embedding 57 1 1 0x90) = (if (embedding 57 1 1 0x90).chunk = 0 then (embedding 57 1 1 0x90).draw .sym 1
      else ((embedding 57 1 1 0x90).shr, embedding 57 1 1 0x90)) ∧
    57 = ((embedding 57 1 1 0x90).draw .img 57).1 :=
  ⟨embedding_running 0x90 (by decide) (by decide) (by decide), rfl, by decide, by decide, by decide, by decide,
    rfl, rfl⟩
theorem witness_embed_completion : Running (embedding 113 2 0 0) [] .four ∧ (embedding 113 2 0 0).op = 0x3 ∧
    54 ≤ (113 : Addr).toNat ∧ (embedding 113 2 0 0).sidx = (embedding 113 2 0 0).cnt ∧
    (embedding 113 2 0 0).cur = (embedding 113 2 0 0).len :=
  ⟨embedding_running 0 (by decide) (by decide) (by decide), rfl, by decide, rfl, rfl⟩

theorem witness_extract_first_chunk : Running (extracting 54 0 0) [] .one ∧ (extracting 54 0 0).op = 0x4 ∧
    (extracting 54 0 0).sidx < (extracting 54 0 0).cnt ∧ (extracting 54 0 0).inExtent .img 54 = true ∧
    (extracting 54 0 0).chunk.toNat + 1 ≠ Degree.one.steps ∧ 0xFF = ((extracting 54 0 0).draw .img 54).1 :=
  ⟨⟨.inr ⟨rfl, rfl⟩, rfl, rfl, rfl, by decide, by decide, by decide⟩, rfl, by decide, by decide, by decide, by decide⟩
theorem witness_extract_last_chunk : Running (extracting 61 7 0x52) [] .one ∧ (extracting 61 7 0x52).op = 0x4 ∧
    (extracting 61 7 0x52).sidx < (extracting 61 7 0x52).cnt ∧ (extracting 61 7 0x52).inExtent .img 61 = true ∧
    (extracting 61 7 0x52).chunk.toNat + 1 = Degree.one.steps ∧ (extracting 61 7 0x52).inExtent .sym 0 = true ∧
    0xFF = ((extracting 61 7 0x52).draw .img 61).1 :=
  ⟨⟨.inr ⟨rfl, rfl⟩, rfl, rfl, rfl, by decide, by decide, by decide⟩, rfl, by decide, by decide, by decide, by decide,
    by decide⟩
theorem witness_extract_completion : Running { extracting 62 0 0 with sidx := 1 } [] .one ∧
    ({ extracting 62 0 0 with sidx := 1 } : State).op = 0x4 ∧
    ({ extracting 62 0 0 with sidx := 1 } : State).sidx = ({ extracting 62 0 0 with sidx := 1 } : State).cnt :=
  ⟨⟨.inr ⟨rfl, rfl⟩, rfl, rfl, rfl, by decide, by decide, by decide⟩, rfl, rfl⟩

theorem witness_chunk_bounds : 0 < Degree.eight.steps ∧ 7 < Degree.one.steps := by decide

/-- `EMBED 8, 56, 1` of vector V4, whole: one carrier byte and one tail byte. -/
def embedding56 : State := waiting (encode (.embed Degree.eight.field 56 1)) (bytes 56 (· + 0x10)) (bytes 1 (fun _ => 0x41))

theorem witness_embed_whole : Presents embedding56 (encode (.embed Degree.eight.field 56 1)) ∧ admissible .eight 56 1 = true ∧
    EmbedStorage embedding56 56 1 ∧ WrittenFrom embedding56 .img 0 56 ∧ WrittenFrom embedding56 .sym 0 1 := by
  refine ⟨waiting_presents _ _ _, by decide, ⟨by unfold Provides; decide, by unfold Provides; decide, by unfold Provides; decide⟩, ?_, ?_⟩
  · unfold WrittenFrom; decide
  · unfold WrittenFrom; decide

theorem witness_embed_smallest : Presents (waiting (encode (.embed Degree.eight.field 55 0)) (bytes 55 id) [])
      (encode (.embed Degree.eight.field 55 0)) ∧
    admissible .eight 55 0 = true ∧
    EmbedStorage (waiting (encode (.embed Degree.eight.field 55 0)) (bytes 55 id) []) 55 0 ∧
    WrittenFrom (waiting (encode (.embed Degree.eight.field 55 0)) (bytes 55 id) []) .img 0 55 ∧
    WrittenFrom (waiting (encode (.embed Degree.eight.field 55 0)) (bytes 55 id) []) .sym 0 0 := by
  refine ⟨waiting_presents _ _ _, by decide,
    ⟨by unfold Provides; decide, by unfold Provides; decide, by unfold Provides; decide⟩, ?_, fun i h => absurd h (Nat.not_lt_zero i)⟩
  unfold WrittenFrom; decide

/-- `EXTRACT d, L, N` on an image whose bytes are given. -/
def extractingFrom (d : Degree) (len cnt : Len) (img : Memory) : State := waiting (encode (.extract d.field len cnt)) img []

theorem witness_extract_whole : Presents (extractingFrom .one 441 1 (extracting 54 0 0).img) (encode (.extract Degree.one.field 441 1)) ∧
    admissible .one 441 1 = true ∧ ExtractStorage (extractingFrom .one 441 1 (extracting 54 0 0).img) .one 1 ∧
    WrittenFrom (extractingFrom .one 441 1 (extracting 54 0 0).img) .img 54 (54 + (1 : Len).toNat * Degree.one.steps) := by
  refine ⟨waiting_presents _ _ _, by decide, ⟨by unfold Provides; decide, by unfold Provides; decide⟩, ?_⟩
  unfold WrittenFrom; decide
theorem witness_extract_nothing : Presents (extractingFrom .eight 55 0 []) (encode (.extract Degree.eight.field 55 0)) ∧
    admissible .eight 55 0 = true ∧ ExtractStorage (extractingFrom .eight 55 0 []) .eight 0 :=
  ⟨waiting_presents _ _ _, by decide, by unfold Provides; decide, by unfold Provides; decide⟩

/-- For every result of an EMBED there is an EXTRACT set up on it, so the round trip speaks of every run. -/
theorem witness_round_trip (t : State) :
    Presents (extractingFrom .eight 56 1 t.out) (encode (.extract Degree.eight.field 56 1)) ∧ admissible .eight 56 1 = true ∧
    ExtractStorage (extractingFrom .eight 56 1 t.out) .eight 1 ∧
    (∀ i, isCarrier .eight 1 i = true → (extractingFrom .eight 56 1 t.out).byteAt .img i = t.byteAt .out i) :=
  ⟨waiting_presents _ _ _, by decide,
    ⟨waiting_provides _ _ _ _ (by decide), waiting_provides _ _ _ _ (by decide)⟩,
    fun _ _ => rfl⟩

/-- The same image under `EXTRACT 1, 449, 1` and `EXTRACT 1, 449, 2`, whose carriers hold both counts. -/
theorem witness_prefix : (1 : Len) ≤ 2 ∧ admissible .one 449 1 = true ∧ admissible .one 449 2 = true ∧
    Presents (extractingFrom .one 449 1 (bytes 70 id)) (encode (.extract Degree.one.field 449 1)) ∧
    Presents (extractingFrom .one 449 2 (bytes 70 id)) (encode (.extract Degree.one.field 449 2)) ∧
    ExtractStorage (extractingFrom .one 449 1 (bytes 70 id)) .one 1 ∧
    ExtractStorage (extractingFrom .one 449 2 (bytes 70 id)) .one 2 ∧
    (∀ i, isCarrier .one 1 i = true →
      (extractingFrom .one 449 1 (bytes 70 id)).byteAt .img i = (extractingFrom .one 449 2 (bytes 70 id)).byteAt .img i) ∧
    WrittenFrom (extractingFrom .one 449 2 (bytes 70 id)) .img 54 (54 + (2 : Len).toNat * Degree.one.steps) := by
  refine ⟨by decide, by decide, by decide, waiting_presents _ _ _, waiting_presents _ _ _,
    ⟨by unfold Provides; decide, by unfold Provides; decide⟩, ⟨by unfold Provides; decide, by unfold Provides; decide⟩,
    fun _ _ => rfl, ?_⟩
  unfold WrittenFrom; decide

theorem witness_step_runs : EdgeNext (State.reset.withFetchWord 96 0x21) [] ∧ cmdReady (State.reset.withFetchWord 96 0x21) = true ∧
    (State.reset.withFetchWord 96 0x21).pins.cmdValid = true ∧
    decode (State.reset.withFetchWord 96 0x21).pins.cmdData = .ok (.masks 2) :=
  ⟨.inr ⟨rfl, rfl⟩, by decide, by decide, by decide⟩

theorem witness_busy_step : EdgeNext (embedding 54 0 0 0) [] ∧ cmdReady (embedding 54 0 0 0) = false ∧
    (embedding 54 0 0 0).phase = .run ∧ (embedding 54 0 0 0).pins.rst = false ∧ ∃ t, step (embedding 54 0 0 0) = .next t :=
  ⟨.inr ⟨rfl, rfl⟩, rfl, rfl, rfl, _, rfl⟩
theorem witness_response_changes : ∃ t, step (embedding 113 2 0 0) = .next t ∧ t.rsp ≠ (embedding 113 2 0 0).rsp :=
  ⟨_, rfl, by decide⟩

/-- A response waits, and the host takes it or not. -/
def responding (ready : Bool) : State :=
  { State.reset with
    phase := .resp, rsp := 0x0000000400
    pins := { State.reset.pins with rspReady := ready }
    host := { State.reset.host with lent := true } }

theorem witness_handshake : EdgeNext (responding true) [] ∧ (responding true).phase = .resp ∧
    (responding true).pins.rst = false ∧ (responding true).pins.rspReady = true ∧ (responding false).pins.rspReady = false :=
  ⟨.inr ⟨rfl, rfl⟩, rfl, rfl, rfl, rfl⟩

theorem witness_memory : (∃ t, memWrite .sym 0 0x48 State.reset = .ok t) ∧ (∃ r, memRead .img 0 State.reset = .ok r) ∧
    State.reset.byteAt .img 0 = none := ⟨⟨_, rfl⟩, ⟨_, rfl⟩, rfl⟩

/-- The host has provided 113 bytes behind `IMG`, and fills or reads address `a`. -/
def bounded (m : HostMove) : State :=
  { State.reset with host := { State.reset.host with script := [m], extents := { Extents.whole with img := 113 } } }

theorem witness_beyond_storage : (bounded (.fill .img 113 0)).host.extents.of .img ≤ (113 : Addr).toNat ∧
    engineOwns (bounded (.fill .img 113 0)) .img 113 = false ∧ (bounded (.fill .img 113 0)).host.script = [.fill .img 113 0] ∧
    (bounded (.read .img 113)).host.script = [.read .img 113] := by decide
theorem witness_host_fill : (bounded (.fill .img 112 7)).host.script = [.fill .img 112 7] ∧
    engineOwns (bounded (.fill .img 112 7)) .img 112 = false ∧ (bounded (.fill .img 112 7)).inExtent .img 112 = true := by decide
theorem witness_host_read : (embedding 113 2 0 0).byteAt .img 112 = some 112 ∧
    engineOwns { embedding 113 2 0 0 with host := { State.reset.host with script := [.read .img 112] } } .img 112 = false ∧
    (embedding 113 2 0 0).inExtent .img 112 = true := by decide
theorem witness_window_opens : admissible .eight 55 0 = true ∧ (∃ t, exec (.embed Degree.eight.field 55 0) State.reset = .next t) ∧
    ∃ t, exec (.extract Degree.eight.field 55 0) State.reset = .next t := ⟨by decide, ⟨_, rfl⟩, ⟨_, rfl⟩⟩
theorem witness_host_in_the_window :
    engineOwns { embedding 54 0 0 0 with host := { (embedding 54 0 0 0).host with script := [.read .img 112] } } .img 112 = true := by
  decide
theorem witness_lines : (responding true).pins.rst = false ∧ rspValid (responding true) = true := by decide
theorem witness_window : engineOwns (embedding 54 0 0 0) .img 112 = true ∧ engineOwns (embedding 54 0 0 0) .img 113 = false ∧
    engineOwns (embedding 54 0 0 0) .sym 1 = true ∧ engineOwns (extracting 54 0 0) .img 61 = true ∧
    engineOwns (extracting 54 0 0) .img 53 = false := by decide

theorem embedding_meets_the_invariant : Inv (embedding 54 0 0 0) := by
  refine ⟨⟨by decide, by decide, by decide⟩, ⟨by decide, by decide, by decide⟩, by decide, by decide,
    fun _ => ⟨⟨.four, rfl, rfl, rfl, by decide, .inl ⟨rfl, .inr (.inl ⟨by decide, by decide, by decide⟩)⟩⟩, rfl⟩, fun h => ?_⟩
  exact absurd h (by decide)
theorem witness_always_enabled : Inv (embedding 54 0 0 0) ∧ EdgeNext (embedding 54 0 0 0) [] ∧ (embedding 54 0 0 0).phase = .run ∧
    (embedding 54 0 0 0).pins.rst = false ∧ EmbedStorage (embedding 54 0 0 0) 113 2 ∧
    Degree.ofField (embedding 54 0 0 0).deg = some .four ∧ (embedding 54 0 0 0).op = 0x3 :=
  ⟨embedding_meets_the_invariant, .inr ⟨rfl, rfl⟩, rfl, rfl,
    ⟨by unfold Provides; decide, by unfold Provides; decide, by unfold Provides; decide⟩, rfl, rfl⟩
theorem witness_step_from_the_invariant : Inv (embedding 54 0 0 0) ∧ ∃ t, step (embedding 54 0 0 0) = .next t :=
  ⟨embedding_meets_the_invariant, _, rfl⟩

/-- An EXTRACT in flight meets the invariant too. -/
theorem extracting_meets_the_invariant : Inv (extracting 61 7 0x52) := by
  refine ⟨⟨by decide, by decide, by decide⟩, ⟨by decide, by decide, by decide⟩, by decide, by decide,
    fun _ => ⟨⟨.one, rfl, rfl, rfl, by decide, .inr ⟨rfl, by decide, by decide, fun h => absurd h (by decide), by decide⟩⟩, rfl⟩,
    fun h => absurd h (by decide)⟩
theorem witness_extract_always_enabled : Inv (extracting 61 7 0x52) ∧ EdgeNext (extracting 61 7 0x52) [] ∧
    (extracting 61 7 0x52).phase = .run ∧ (extracting 61 7 0x52).pins.rst = false ∧
    Degree.ofField (extracting 61 7 0x52).deg = some .one ∧ (extracting 61 7 0x52).op = 0x4 ∧
    ExtractStorage (extracting 61 7 0x52) .one 1 :=
  ⟨extracting_meets_the_invariant, .inr ⟨rfl, rfl⟩, rfl, rfl, rfl, rfl, by unfold Provides; decide, by unfold Provides; decide⟩

theorem witness_embed_priority : opField 0x000000030000007100000043 = 0x3 ∧ rsvField 0x000000030000007100000043 = 0 ∧
    Degree.ofField (degField 0x000000030000007100000043) = some .four ∧
    admissible .four (lenField 0x000000030000007100000043) (cntField 0x000000030000007100000043) = false := by decide
theorem witness_priority : opField 0x000000030000007100000044 = 0x4 ∧ rsvField 0x000000030000007100000044 = 0 ∧
    Degree.ofField (degField 0x000000030000007100000044) = some .four ∧
    admissible .four (lenField 0x000000030000007100000044) (cntField 0x000000030000007100000044) = false ∧
    Degree.ofField (degField 0x33) = none := by decide
theorem witness_error : ∃ t, acceptStep 0x33 State.reset = .next t ∧ t.phase = .resp ∧ codeField t.rsp ≠ 0 :=
  ⟨_, rfl, rfl, by decide⟩

/-- An EMBED in flight with `rst` raised. -/
def resetting : State := { embedding 54 0 0 0 with pins := { State.reset.pins with rst := true } }

theorem witness_reset : EdgeNext resetting [] ∧ resetting.pins.rst = true := ⟨.inr ⟨rfl, rfl⟩, rfl⟩
/-- A response waits with `rst` raised, where the level of `rsp_valid` is open. -/
def respondingUnderReset : State := { responding true with pins := { State.reset.pins with rst := true, rspReady := true } }

theorem witness_reset_in_resp : EdgeNext respondingUnderReset [] ∧ respondingUnderReset.pins.rst = true ∧
    respondingUnderReset.phase = .resp ∧ resetting.phase ≠ .resp := ⟨.inr ⟨rfl, rfl⟩, rfl, rfl, by decide⟩
theorem witness_answered : Presents (waiting 0x33 [] []) 0x33 ∧ (waiting 0x33 [] []).host.extents = .whole :=
  ⟨waiting_presents _ _ _, rfl⟩

end Sys2Proof.Tests
end

/-! SUPPORT. The statements about the state and its invariant (`10_state.md`): the facts about a response, a symbol's chunks and
the capacity bound they need, what one run step moves, and then the statements themselves. -/

namespace Sys2Proof.Machine

/-! ## The fields of a response word (`30_encoding.md` rule R67) -/

@[simp] theorem codeField_responseWord (code : Code) (none : Bool) (value : BitVec 32) :
    codeField (responseWord code none value) = code.number := by
  apply BitVec.eq_of_getLsbD_eq
  intro i hi
  simp [codeField, responseWord_getLsbD, hi]

@[simp] theorem noneFlag_responseWord (code : Code) (none : Bool) (value : BitVec 32) :
    noneFlag (responseWord code none value) = none := by
  rw [noneFlag, responseWord_getLsbD, if_neg (by omega), if_pos (by omega)]

@[simp] theorem zeroField_responseWord (code : Code) (none : Bool) (value : BitVec 32) :
    zeroField (responseWord code none value) = 0 := by
  apply BitVec.eq_of_getLsbD_eq
  intro i hi
  simp [zeroField, responseWord_getLsbD, show ¬ 5 + i < 4 by omega, show 5 + i < 8 by omega]

@[simp] theorem valueField_responseWord (code : Code) (none : Bool) (value : BitVec 32) :
    valueField (responseWord code none value) = value := by
  apply BitVec.eq_of_getLsbD_eq
  intro i hi
  simp [valueField, responseWord_getLsbD, hi, show ¬ 8 + i < 4 by omega, show ¬ 8 + i < 5 by omega]

/-- No response code is above 4 (R67, R150). -/
theorem code_number_le (code : Code) : code.number ≤ 4 := by cases code <;> decide

/-- A response of success is well-formed with any `NONE` and `VALUE`. -/
theorem responseFormed_ok (none : Bool) (value : BitVec 32) : ResponseFormed (responseWord .ok none value) :=
  ⟨by simp, by simpa using code_number_le .ok, fun hne => absurd (codeField_responseWord .ok none value) hne⟩

/-- A response without `NONE` and `VALUE` is well-formed with any code. -/
theorem responseFormed_no_value (code : Code) : ResponseFormed (responseWord code false 0) :=
  ⟨by simp, by simpa using code_number_le code, fun _ => by simp⟩

/-- The response register of a reset engine is well-formed (R67, R171). -/
theorem responseFormed_zero : ResponseFormed 0 := ⟨by decide, by decide, fun hne => absurd (by decide) hne⟩

/-! ## The chunks of a symbol (`20_memory.md` rule R45, `40_masks.md` rules R80 to R82) -/

/-- The text mask holds the top `d` bits of a byte (R80). -/
theorem textMaskOf_getLsbD (d : Degree) {i : Nat} (hi : i < 8) :
    (textMaskOf d).getLsbD i = decide (8 - d.bits ≤ i) := by
  revert i; cases d <;> decide

/-- The extraction mask holds the low `d` bits of a byte (R82). -/
theorem extMaskOf_getLsbD (d : Degree) {i : Nat} (hi : i < 8) :
    (extMaskOf d).getLsbD i = decide (i < d.bits) := by
  revert i; cases d <;> decide

/-- The extraction mask as a number: `2 ^ d - 1` (R82). -/
theorem extMaskOf_toNat (d : Degree) : (extMaskOf d).toNat = 2 ^ d.bits - 1 := by cases d <;> decide

/-- The chunks of a symbol lie inside its byte (R45). -/
theorem bits_mul_succ_le {d : Degree} {c : Nat} (hc : c < d.steps) : d.bits * (c + 1) ≤ 8 :=
  calc d.bits * (c + 1) ≤ d.bits * d.steps := Nat.mul_le_mul_left _ hc
    _ = 8 := by rw [Nat.mul_comm, steps_mul_bits]

/-- The top `d` bits of a shifted symbol, moved down, are its next chunk, bit by bit (R15, R45, R104). -/
theorem shifted_top_bits_eq_chunkBits {d : Degree} (v : Byte) {c : Nat} (hc : c < d.steps) :
    ((v <<< (d.bits * c)) &&& textMaskOf d) >>> d.shamt = chunkBits d v c := by
  have hfit : d.bits * c + d.bits ≤ 8 := bits_mul_succ_le hc
  apply BitVec.eq_of_getLsbD_eq
  intro j hj
  simp only [chunkBits, BitVec.getLsbD_ushiftRight, BitVec.getLsbD_and, extMaskOf_getLsbD d hj, Degree.shamt]
  by_cases hjd : j < d.bits
  · have hmask : (textMaskOf d).getLsbD (8 - d.bits + j) = true := by
      rw [textMaskOf_getLsbD d (by omega)]; simp
    rw [hmask, BitVec.getLsbD_shiftLeft, Nat.mul_add_one,
      show 8 - d.bits + j - d.bits * c = 8 - (d.bits * c + d.bits) + j by omega]
    simp [hjd, show 8 - d.bits + j < 8 by omega, show d.bits * c ≤ 8 - d.bits + j by omega]
  · simp [hjd, BitVec.getLsbD_of_ge (textMaskOf d) (8 - d.bits + j) (by omega)]

/-- A chunk as a number: its place in the symbol divided out, then the low `d` bits (R45). -/
theorem chunkBits_toNat (d : Degree) (v : Byte) (c : Nat) :
    (chunkBits d v c).toNat = v.toNat / 2 ^ (8 - d.bits * (c + 1)) % 2 ^ d.bits := by
  rw [chunkBits, BitVec.toNat_and, extMaskOf_toNat, BitVec.toNat_ushiftRight, Nat.and_two_pow_sub_one_eq_mod,
    Nat.shiftRight_eq_div_pow]

/-- Settles O22, bit by bit for the chunk and by the mask `2 ^ d - 1` for its number. -/
theorem shiftedSymbolGivesItsNextChunk : Obligations.ShiftedSymbolGivesItsNextChunk :=
  fun d v c hc => ⟨shifted_top_bits_eq_chunkBits v hc, chunkBits_toNat d v c⟩

/-! ## The capacity bound (`41_capacity.md` rules R90 to R94) -/

/-- The left side of the check is not cut at 36 bits (R92). -/
theorem scaledCount_toNat (cnt : Len) : (scaledCount cnt).toNat = 8 * (cnt.toNat + 54) := by
  have := cnt.isLt
  simp only [scaledCount, BitVec.toNat_shiftLeft, BitVec.toNat_add, BitVec.toNat_setWidth, BitVec.toNat_ofNat,
    Nat.shiftLeft_eq, Config.headerSize]
  omega

/-- The right side of the check is not cut at 36 bits (R92). -/
theorem scaledLength_toNat (d : Degree) (len : Len) : (scaledLength d len).toNat = len.toNat * d.bits := by
  have := len.isLt
  simp only [scaledLength, BitVec.toNat_shiftLeft, BitVec.toNat_setWidth, Nat.shiftLeft_eq]
  cases d <;> simp only [Degree.log2, Degree.bits] <;> omega

/-- The capacity check over the integers (R91, R92). -/
theorem admissible_iff {d : Degree} {len cnt : Len} :
    admissible d len cnt = true ↔ 8 * (cnt.toNat + 54) < len.toNat * d.bits := by
  simp [admissible, BitVec.ult, scaledCount_toNat, scaledLength_toNat]

/-- The header and the carriers of an admissible count end before the image does (R94). -/
theorem carriers_lt_len {d : Degree} {len cnt : Len} (h : admissible d len cnt = true) :
    Config.headerSize + cnt.toNat * d.steps < len.toNat := by
  have h := admissible_iff.mp h
  simp only [Config.headerSize]
  cases d <;> simp only [Degree.bits, Degree.steps] at h ⊢ <;> omega

/-! ## What one run step moves (`44_sequencing.md` rule R138) -/

/-- `t` is `s` after a run step that handled one byte of the image: the cursor is one further and the command goes on with the
operands and masks it had (R11, R12, R17). -/
structure HandlesOneByte (s t : State) : Prop where
  phase : t.phase = s.phase
  op : t.op = s.op
  deg : t.deg = s.deg
  len : t.len = s.len
  cnt : t.cnt = s.cnt
  textMask : t.textMask = s.textMask
  imgMask : t.imgMask = s.imgMask
  cur : t.cur = s.cur + 1
  rsp : t.rsp = s.rsp
  host : t.host = s.host
  memories : MemoriesWf s → MemoriesWf t

/-- What a run step stores, draws, shows on the bus or counts is not among the fields of `HandlesOneByte`. -/
theorem handlesOneByte_of_data {s : State} {sidx : Addr} {chunk : BitVec 3} {shr acc : Byte} {sym out : Memory}
    {bus : List Access} {draws : Nat} (hsym : Memory.wf s.sym = true → Memory.wf sym = true)
    (hout : Memory.wf s.out = true → Memory.wf out = true) :
    HandlesOneByte s { s with
      cur := s.cur + 1, sidx := sidx, chunk := chunk, shr := shr, acc := acc, sym := sym, out := out, bus := bus
      draws := draws } where
  phase := rfl
  op := rfl
  deg := rfl
  len := rfl
  cnt := rfl
  textMask := rfl
  imgMask := rfl
  cur := rfl
  rsp := rfl
  host := rfl
  memories := fun ⟨wimg, wsym, wout⟩ => ⟨wimg, hsym wsym, hout wout⟩

/-- `t` has the chunk after that of `s`, which is the first of the next symbol after the last of one (R13, R14). -/
def MovesToNextChunk (d : Degree) (s t : State) : Prop :=
  (s.chunk.toNat + 1 = d.steps ∧ t.chunk = 0 ∧ t.sidx = s.sidx + 1) ∨
  (s.chunk.toNat + 1 ≠ d.steps ∧ t.chunk = s.chunk + 1 ∧ t.sidx = s.sidx)

/-- A header or tail step of EMBED handles one byte and stays at its symbol and chunk (R103, R105). -/
theorem copyByte_handlesOneByte {s t : State} (h : copyByte s = .ok t) :
    HandlesOneByte s t ∧ t.sidx = s.sidx ∧ t.chunk = s.chunk := by
  obtain ⟨-, -, rfl⟩ := copyByte_cases h
  exact ⟨handlesOneByte_of_data id (wf_write _ _), rfl, rfl⟩

/-- Advancing the chunk writes `CHUNK` and `SIDX` alone, as `MovesToNextChunk` says. -/
theorem advanceChunk_cases (d : Degree) (s : State) :
    (s.chunk.toNat + 1 = d.steps ∧ advanceChunk d s = { s with chunk := 0, sidx := s.sidx + 1 }) ∨
    (s.chunk.toNat + 1 ≠ d.steps ∧ advanceChunk d s = { s with chunk := s.chunk + 1 }) := by
  by_cases hlast : s.chunk.toNat + 1 = d.steps
  · exact .inl ⟨hlast, by simp [advanceChunk, State.lastChunk, hlast]⟩
  · exact .inr ⟨hlast, by simp [advanceChunk, State.lastChunk, hlast]⟩

/-- Fetching the symbol of a body step changes the count of draws and the bus alone (R104). -/
theorem embedSymbol_state {s s1 : State} {sv : Byte} (h : embedSymbol s = .ok (sv, s1)) :
    ∃ draws bus, s1 = { s with draws := draws, bus := bus } := by
  obtain ⟨-, -, hr⟩ | ⟨-, hr⟩ := embedSymbol_cases h <;> cases hr <;> exact ⟨_, _, rfl⟩

/-- A body step of EMBED handles one byte and one chunk (R104). -/
theorem embedBodyStep_handlesOneByte {d : Degree} {s t : State} (h : embedBodyStep d s = .ok t) :
    HandlesOneByte s t ∧ MovesToNextChunk d s t := by
  obtain ⟨sv, s1, hsym, -, -, rfl⟩ := embedBodyStep_cases h
  obtain ⟨draws, bus, rfl⟩ := embedSymbol_state hsym
  obtain ⟨hlast, ht⟩ | ⟨hlast, ht⟩ := advanceChunk_cases d _ <;> rw [ht]
  · exact ⟨handlesOneByte_of_data id (wf_write _ _), .inl ⟨hlast, rfl, rfl⟩⟩
  · exact ⟨handlesOneByte_of_data id (wf_write _ _), .inr ⟨hlast, rfl, rfl⟩⟩

/-- A body step of EXTRACT handles one byte and one chunk (R123). -/
theorem extractBodyStep_handlesOneByte {d : Degree} {s t : State} (h : extractBodyStep d s = .ok t) :
    HandlesOneByte s t ∧ MovesToNextChunk d s t := by
  obtain ⟨-, ⟨hlast, -, rfl⟩ | ⟨hlast, rfl⟩⟩ := extractBodyStep_cases h
  · exact ⟨handlesOneByte_of_data (wf_write _ _) id, .inl ⟨by simpa [State.lastChunk] using hlast, rfl, rfl⟩⟩
  · exact ⟨handlesOneByte_of_data id id, .inr ⟨by simpa [State.lastChunk] using hlast, rfl, rfl⟩⟩

/-- A run step handles one byte or, with every symbol and in an EMBED every byte done, completes the run (R106, R124, R138). -/
theorem runStep_handlesOneByte_or_completes {s t : State} (h : runStep s = .next t) :
    HandlesOneByte s t ∨ (s.sidx = s.cnt ∧ (s.op = 0x3 → s.cur = s.len) ∧ ∃ d, t = completeRun d s) := by
  obtain ⟨d, -, -, -, -, hstep⟩ := runStep_cases h
  obtain ⟨-, -, hcopy⟩ | ⟨-, -, -, hbody⟩ | ⟨-, -, -, -, hcopy⟩ | ⟨-, -, hsidx, hcur, ht⟩ | ⟨-, -, hbody⟩ |
    ⟨hop, hsidx, ht⟩ := hstep
  · exact .inl (copyByte_handlesOneByte hcopy).1
  · exact .inl (embedBodyStep_handlesOneByte hbody).1
  · exact .inl (copyByte_handlesOneByte hcopy).1
  · exact .inr ⟨hsidx, fun _ => hcur, d, ht⟩
  · exact .inl (extractBodyStep_handlesOneByte hbody).1
  · exact .inr ⟨hsidx, fun hop3 => absurd (hop.symm.trans hop3) (by decide), d, ht⟩

/-! ## The invariant (`10_state.md` sections 1 to 4) -/

/-- The place of a run in the body and the capacity bound keep the cursor inside the image (R94). -/
theorem cur_lt_len_of_bodyPosition {d : Degree} {s : State} (hadm : admissible d s.len s.cnt = true)
    (hpos : ExtractPosition d s) : s.cur < s.len := by
  obtain ⟨hsidx, hchunk, hend, hcur⟩ := hpos
  have hroom := carriers_lt_len hadm
  have hinside : s.sidx.toNat * d.steps + s.chunk.toNat ≤ s.cnt.toNat * d.steps := by
    by_cases heq : s.sidx = s.cnt
    · simp [heq, hend heq]
    · have hlt : s.sidx.toNat + 1 ≤ s.cnt.toNat := by bv_omega
      calc s.sidx.toNat * d.steps + s.chunk.toNat ≤ (s.sidx.toNat + 1) * d.steps := by rw [Nat.add_one_mul]; omega
        _ ≤ s.cnt.toNat * d.steps := Nat.mul_le_mul_right _ hlt
  rw [BitVec.lt_def]
  omega

/-- The place of a run before its first symbol, at the first carrier byte (R44, R122). -/
theorem bodyPosition_first {d : Degree} {s : State} (hsidx : s.sidx = 0) (hchunk : s.chunk = 0)
    (hcur : s.cur.toNat = Config.headerSize) : ExtractPosition d s :=
  ⟨by rw [hsidx]; bv_omega, by simpa [hchunk] using steps_pos d, fun _ => hchunk, by simp [hsidx, hchunk, hcur]⟩

/-- A body step of either transform keeps `CUR = 54 + SIDX * STEPS + CHUNK` (R13, R14, R104, R123). -/
theorem bodyPosition_next {d : Degree} {s t : State} (hadm : admissible d s.len s.cnt = true) (hpos : ExtractPosition d s)
    (hmore : s.sidx < s.cnt) (hbyte : HandlesOneByte s t) (hnext : MovesToNextChunk d s t) : ExtractPosition d t := by
  have hlt := cur_lt_len_of_bodyPosition hadm hpos
  obtain ⟨-, hchunk, -, hcur⟩ := hpos
  have hcur' : t.cur.toNat = s.cur.toNat + 1 := by rw [hbyte.cur]; bv_omega
  obtain ⟨hlast, hc, hs⟩ | ⟨hlast, hc, hs⟩ := hnext
  · have hs' : t.sidx.toNat = s.sidx.toNat + 1 := by rw [hs]; bv_omega
    have hc' : t.chunk.toNat = 0 := by simp [hc]
    refine ⟨?_, by rw [hc']; exact steps_pos d, fun _ => hc, ?_⟩
    · rw [hbyte.cnt, hs]; bv_omega
    · rw [hcur', hcur, hs', hc', Nat.add_one_mul]; omega
  · have := steps_le d
    have hc' : t.chunk.toNat = s.chunk.toNat + 1 := by rw [hc]; bv_omega
    refine ⟨?_, by omega, fun hend => ?_, by rw [hcur', hcur, hs, hc', Nat.add_assoc]⟩
    · rw [hbyte.cnt, hs]; bv_omega
    · rw [hbyte.cnt, hs] at hend; exact absurd hmore (by simp [hend])

/-- The body and the end of it are places of an EMBED (R104, R105). -/
theorem embedPosition_of_bodyPosition {d : Degree} {s : State} (hadm : admissible d s.len s.cnt = true)
    (hpos : ExtractPosition d s) : EmbedPosition d s := by
  have hlt := cur_lt_len_of_bodyPosition hadm hpos
  obtain ⟨hsidx, hchunk, hend, hcur⟩ := hpos
  by_cases heq : s.sidx = s.cnt
  · refine .inr (.inr ⟨heq, hend heq, ?_, by bv_omega⟩)
    simp [hcur, heq]
  · exact .inr (.inl ⟨by bv_omega, hchunk, hcur⟩)

/-- A header step of EMBED stays in the header or comes to the first carrier byte (R103). -/
theorem embedPosition_after_header {d : Degree} {s t : State} (hadm : admissible d t.len t.cnt = true)
    (hpos : EmbedPosition d s) (hheader : s.cur.toNat < Config.headerSize) (hcur : t.cur = s.cur + 1)
    (hsidx : t.sidx = s.sidx) (hchunk : t.chunk = s.chunk) : EmbedPosition d t := by
  obtain ⟨-, hs, hc⟩ | ⟨-, -, hbody⟩ | ⟨-, -, htail, -⟩ := hpos
  · have hnext : t.cur.toNat = s.cur.toNat + 1 := by rw [hcur]; simp only [Config.headerSize] at hheader; bv_omega
    by_cases hin : t.cur.toNat < Config.headerSize
    · exact .inl ⟨hin, hsidx.trans hs, hchunk.trans hc⟩
    · exact embedPosition_of_bodyPosition hadm (bodyPosition_first (hsidx.trans hs) (hchunk.trans hc) (by omega))
  · omega
  · omega

/-- An EMBED beyond the header with symbols left is in the body (R104). -/
theorem bodyPosition_of_embedPosition {d : Degree} {s : State} (hpos : EmbedPosition d s)
    (hbeyond : Config.headerSize ≤ s.cur.toNat) (hmore : s.sidx < s.cnt) : ExtractPosition d s := by
  obtain ⟨hheader, -, -⟩ | ⟨-, hchunk, hcur⟩ | ⟨hend, -, -, -⟩ := hpos
  · omega
  · exact ⟨by bv_omega, hchunk, fun hend => absurd hmore (by simp [hend]), hcur⟩
  · exact absurd hmore (by simp [hend])

/-- A tail step of EMBED stays in the tail (R105). -/
theorem embedPosition_after_tail {d : Degree} {s t : State} (hpos : EmbedPosition d s)
    (hbeyond : Config.headerSize ≤ s.cur.toNat) (hend : s.sidx = s.cnt) (hmore : s.cur < s.len) (hbyte : HandlesOneByte s t)
    (hsidx : t.sidx = s.sidx) (hchunk : t.chunk = s.chunk) : EmbedPosition d t := by
  obtain ⟨hheader, -, -⟩ | ⟨hbody, -, -⟩ | ⟨-, hc, hcarriers, -⟩ := hpos
  · omega
  · exact absurd hbody (by simp [hend])
  · have hnext : t.cur.toNat = s.cur.toNat + 1 := by rw [hbyte.cur]; bv_omega
    refine .inr (.inr ⟨by rw [hsidx, hbyte.cnt, hend], hchunk.trans hc, ?_, ?_⟩)
    · rw [hbyte.cnt]; omega
    · rw [hbyte.len, hbyte.cur]; bv_omega

/-- The run invariant bounds the symbol index and the cursor (R12, R13, R94). -/
theorem runInv_bounds {s : State} (h : RunInv s) : s.sidx ≤ s.cnt ∧ s.cur ≤ s.len := by
  obtain ⟨d, -, -, -, hadm, ⟨-, hpos⟩ | ⟨-, hpos⟩⟩ := h
  · have hroom := carriers_lt_len hadm
    obtain ⟨hheader, hs, -⟩ | ⟨hs, hc, hcur⟩ | ⟨hs, -, -, hcur⟩ := hpos
    · exact ⟨by rw [hs]; bv_omega, by rw [BitVec.le_def]; omega⟩
    · have hbody : ExtractPosition d s :=
        ⟨BitVec.le_of_lt hs, hc, fun hend => absurd hs (by simp [hend]), hcur⟩
      exact ⟨hbody.1, BitVec.le_of_lt (cur_lt_len_of_bodyPosition hadm hbody)⟩
    · exact ⟨by simp [hs], hcur⟩
  · exact ⟨hpos.1, BitVec.le_of_lt (cur_lt_len_of_bodyPosition hadm hpos)⟩

/-- A run step keeps the run invariant, or completes the run. -/
theorem runStep_keeps_runInv {s t : State} (hinv : RunInv s) (h : runStep s = .next t) :
    (HandlesOneByte s t ∧ RunInv t) ∨ ∃ d, t = completeRun d s := by
  obtain ⟨d, hdeg, htext, himg, hadm, hpos⟩ := hinv
  obtain ⟨d', hdeg', -, -, -, hstep⟩ := runStep_cases h
  obtain rfl : d = d' := Option.some.inj (hdeg.symm.trans hdeg')
  have keeps (hbyte : HandlesOneByte s t)
      (hnext : (s.op = 0x3 ∧ EmbedPosition d t) ∨ (s.op = 0x4 ∧ ExtractPosition d t)) : HandlesOneByte s t ∧ RunInv t :=
    ⟨hbyte, d, by rw [hbyte.deg, hdeg], by rw [hbyte.textMask, htext], by rw [hbyte.imgMask, himg],
      by rw [hbyte.len, hbyte.cnt, hadm], by rwa [hbyte.op]⟩
  have embed_pos (hop : s.op = 0x3) : EmbedPosition d s := by simpa [hop] using hpos
  have extract_pos (hop : s.op = 0x4) : ExtractPosition d s := by simpa [hop] using hpos
  obtain ⟨hop, hheader, hcopy⟩ | ⟨hop, hbeyond, hmore, hbody⟩ | ⟨hop, hbeyond, hend, hmore, hcopy⟩ | ⟨-, -, -, -, ht⟩ |
    ⟨hop, hmore, hbody⟩ | ⟨-, -, ht⟩ := hstep
  · obtain ⟨hbyte, hsidx, hchunk⟩ := copyByte_handlesOneByte hcopy
    exact .inl (keeps hbyte (.inl ⟨hop, embedPosition_after_header (by rw [hbyte.len, hbyte.cnt, hadm]) (embed_pos hop)
      hheader hbyte.cur hsidx hchunk⟩))
  · obtain ⟨hbyte, hnext⟩ := embedBodyStep_handlesOneByte hbody
    have hpos' := bodyPosition_next hadm (bodyPosition_of_embedPosition (embed_pos hop) hbeyond hmore) hmore hbyte hnext
    exact .inl (keeps hbyte (.inl ⟨hop, embedPosition_of_bodyPosition (by rw [hbyte.len, hbyte.cnt, hadm]) hpos'⟩))
  · obtain ⟨hbyte, hsidx, hchunk⟩ := copyByte_handlesOneByte hcopy
    exact .inl (keeps hbyte (.inl ⟨hop, embedPosition_after_tail (embed_pos hop) hbeyond hend hmore hbyte hsidx hchunk⟩))
  · exact .inr ⟨d, ht⟩
  · obtain ⟨hbyte, hnext⟩ := extractBodyStep_handlesOneByte hbody
    exact .inl (keeps hbyte (.inr ⟨hop, bodyPosition_next hadm (extract_pos hop) hmore hbyte hnext⟩))
  · exact .inr ⟨d, ht⟩

/-- In `RUN` with the window open, the run invariant and the form of memories and response make up the invariant. -/
theorem inv_of_runInv {s : State} (hmem : MemoriesWf s) (hrsp : ResponseFormed s.rsp) (hrun : RunInv s)
    (hphase : s.phase = .run) (hlent : s.host.lent = true) : Inv s := by
  obtain ⟨hsidx, hcur⟩ := runInv_bounds hrun
  exact ⟨hmem, hrsp, hsidx, hcur, fun _ => ⟨hrun, hlent⟩, fun hidle => by simp [hphase] at hidle⟩

/-- Outside `RUN` there is no run invariant to keep, and the window must be closed in `IDLE` (R52). -/
theorem inv_of_not_run {s : State} (hmem : MemoriesWf s) (hrsp : ResponseFormed s.rsp) (hsidx : s.sidx ≤ s.cnt)
    (hcur : s.cur ≤ s.len) (hphase : s.phase ≠ .run) (hidle : s.phase = .idle → s.host.lent = false) : Inv s :=
  ⟨hmem, hrsp, hsidx, hcur, fun hrun => absurd hrun hphase, hidle⟩

/-- A well-formed answer keeps the invariant (R67, R139). -/
theorem respond_keeps_inv {code : Code} {none : Bool} {value : BitVec 32} {s : State} (hinv : Inv s)
    (hrsp : ResponseFormed (responseWord code none value)) : Inv (respond code none value s) := by
  obtain ⟨hmem, -, hsidx, hcur, -, -⟩ := hinv
  exact inv_of_not_run hmem hrsp hsidx hcur (by simp) (by simp)

/-- The start of an EMBED meets the invariant (R102). -/
theorem startEmbed_keeps_inv {d : Degree} {len cnt : Len} {s : State} (hinv : Inv s)
    (hadm : admissible d len cnt = true) : Inv (startRun 0x3 d len cnt 0 s) := by
  obtain ⟨hmem, hrsp, -, -, -, -⟩ := hinv
  exact inv_of_runInv hmem hrsp
    ⟨d, ofField_field d, rfl, rfl, hadm, .inl ⟨rfl, .inl ⟨by simp [Config.headerSize], rfl, rfl⟩⟩⟩ rfl rfl

/-- The start of an EXTRACT meets the invariant (R122). -/
theorem startExtract_keeps_inv {d : Degree} {len cnt : Len} {s : State} (hinv : Inv s)
    (hadm : admissible d len cnt = true) :
    Inv { startRun 0x4 d len cnt (BitVec.ofNat 32 Config.headerSize) s with acc := 0 } := by
  obtain ⟨hmem, hrsp, -, -, -, -⟩ := hinv
  exact inv_of_runInv hmem hrsp
    ⟨d, ofField_field d, rfl, rfl, hadm, .inr ⟨rfl, bodyPosition_first rfl rfl rfl⟩⟩ rfl rfl

/-- The accept step keeps the invariant (R137). -/
theorem acceptStep_keeps_inv {cmd : Cmd} {s t : State} (hinv : Inv s) (h : acceptStep cmd s = .next t) : Inv t := by
  obtain ⟨code, -, rfl⟩ | ⟨none, value, rfl⟩ | ⟨d, len, cnt, hadm, rfl⟩ | ⟨d, len, cnt, hadm, rfl⟩ := acceptStep_cases h
  · exact respond_keeps_inv hinv (responseFormed_no_value code)
  · exact respond_keeps_inv hinv (responseFormed_ok none value)
  · exact startEmbed_keeps_inv hinv hadm
  · exact startExtract_keeps_inv hinv hadm

/-- The run step keeps the invariant (R138). -/
theorem runStep_keeps_inv {s t : State} (hinv : Inv s) (hphase : s.phase = .run) (h : runStep s = .next t) : Inv t := by
  have ⟨hmem, hrsp, _, _, hrun, _⟩ := hinv
  obtain ⟨hrunInv, hlent⟩ := hrun hphase
  obtain ⟨hbyte, hnext⟩ | ⟨d, rfl⟩ := runStep_keeps_runInv hrunInv h
  · exact inv_of_runInv (hbyte.memories hmem) (by rwa [hbyte.rsp]) hnext (hbyte.phase.trans hphase) (by rwa [hbyte.host])
  · exact respond_keeps_inv hinv (responseFormed_ok _ _)

/-- The response handshake keeps the invariant (R140). -/
theorem takeResponse_keeps_inv {s : State} (hinv : Inv s) : Inv (takeResponse s) := by
  obtain ⟨hmem, hrsp, hsidx, hcur, -, -⟩ := hinv
  exact inv_of_not_run hmem hrsp hsidx hcur (by simp) (by simp)

/-- A reset edge keeps the invariant (R170, R171). -/
theorem resetEdge_keeps_inv {s : State} (hinv : Inv s) : Inv (resetEdge s) := by
  obtain ⟨hmem, -⟩ := hinv
  rw [resetEdge_eq]
  exact inv_of_not_run hmem responseFormed_zero (BitVec.le_refl _) (BitVec.le_refl _) (by simp) (by simp)

/-- A clock edge keeps the invariant (R135, R170). -/
theorem clockEdge_keeps_inv {s t : State} (hinv : Inv s) (h : clockEdge s = .next t) : Inv t := by
  obtain ⟨-, rfl⟩ | ⟨-, -, -, haccept⟩ | ⟨-, hphase, hrun⟩ | ⟨-, -, -, rfl⟩ | ⟨-, rfl, -⟩ := clockEdge_cases h
  · exact resetEdge_keeps_inv hinv
  · exact acceptStep_keeps_inv hinv haccept
  · exact runStep_keeps_inv hinv hphase hrun
  · exact takeResponse_keeps_inv hinv
  · exact hinv

/-- A byte stored inside the 32-bit space keeps the invariant (R40, R144). -/
theorem setSpace_write_keeps_inv {s : State} (sp : Space) (a : Addr) (v : Byte) (hinv : Inv s) :
    Inv (s.setSpace sp (Memory.write (s.space sp) a.toNat v)) := by
  obtain ⟨⟨himg, hsym, hout⟩, hregisters⟩ := hinv
  cases sp with
  | img => exact ⟨⟨wf_write a v himg, hsym, hout⟩, hregisters⟩
  | sym => exact ⟨⟨himg, wf_write a v hsym, hout⟩, hregisters⟩
  | out => exact ⟨⟨himg, hsym, wf_write a v hout⟩, hregisters⟩

/-- The invariant does not speak of the host's moves or of the bus, so beginning a step keeps it. -/
theorem begin_keeps_inv {s : State} (rest : List HostMove) (hinv : Inv s) : Inv (s.begin rest) := hinv

/-- Settles O58, by the host's moves and the kinds of clock edge. -/
theorem everyStepKeepsTheInvariant : Obligations.EveryStepKeepsTheInvariant := by
  intro s t hinv h
  obtain ⟨p, rest, -, rfl⟩ | ⟨sp, a, v, rest, -, hfill⟩ | ⟨sp, a, rest, -, hread⟩ | ⟨sp, n, rest, -, hprovide⟩ |
    ⟨rest, -, hedge⟩ := step_cases h
  · exact begin_keeps_inv rest hinv
  · obtain ⟨-, -, rfl⟩ := hostFill_cases hfill
    exact setSpace_write_keeps_inv sp a v (begin_keeps_inv rest hinv)
  · obtain ⟨-, -, rfl⟩ := hostRead_cases hread
    exact begin_keeps_inv rest hinv
  · obtain ⟨-, rfl⟩ := hostProvide_cases hprovide
    exact begin_keeps_inv rest hinv
  · exact clockEdge_keeps_inv (begin_keeps_inv rest hinv) hedge

/-! ## Phases, operands and the port lines (`10_state.md` sections 2 to 5) -/

/-- The descriptor is a valid EMBED or EXTRACT: a legal degree and an admissible count (R18, R101, R121). -/
def StartsRun (cmd : Cmd) : Prop :=
  ∃ d len cnt, admissible d len cnt = true ∧
    (decode cmd = .ok (.embed d.field len cnt) ∨ decode cmd = .ok (.extract d.field len cnt))

/-- The accept step of a valid EMBED or EXTRACT ends in `RUN` (R102, R122). -/
theorem acceptStep_phase_of_startsRun {cmd : Cmd} {s t : State} (hstart : StartsRun cmd) (h : acceptStep cmd s = .next t) :
    t.phase = .run := by
  obtain ⟨d, len, cnt, hadm, hdec | hdec⟩ := hstart
  · rw [acceptStep, hdec] at h
    simp only [exec, execEmbed, ofField_field, hadm, if_true] at h
    cases h; rfl
  · rw [acceptStep, hdec] at h
    simp only [exec, execExtract, ofField_field, hadm, if_true] at h
    cases h; rfl

/-- The accept step of anything but a valid EMBED or EXTRACT ends in `RESP` (R18, R137). -/
theorem acceptStep_phase_resp_or_startsRun {cmd : Cmd} {s t : State} (h : acceptStep cmd s = .next t) :
    t.phase = .resp ∨ StartsRun cmd := by
  unfold acceptStep at h
  split at h
  · cases h; exact .inl rfl
  · rename_i i hdec
    cases i with
    | masks deg =>
      simp only [exec, execMasks] at h
      split at h <;> cases h <;> exact .inl rfl
    | capacity deg len =>
      simp only [exec, execCapacity] at h
      split at h
      · cases h; exact .inl rfl
      · split at h <;> cases h <;> exact .inl rfl
    | embed deg len cnt =>
      simp only [exec, execEmbed] at h
      split at h
      · cases h; exact .inl rfl
      · rename_i d hdeg
        split at h <;> cases h
        · exact .inr ⟨d, len, cnt, ‹_›, .inl (by rw [hdec, field_of_ofField hdeg])⟩
        · exact .inl rfl
    | extract deg len cnt =>
      simp only [exec, execExtract] at h
      split at h
      · cases h; exact .inl rfl
      · rename_i d hdeg
        split at h <;> cases h
        · exact .inr ⟨d, len, cnt, ‹_›, .inr (by rw [hdec, field_of_ofField hdeg])⟩
        · exact .inl rfl

/-- Settles O39: the host's moves leave `PHASE` alone, and each kind of clock edge changes it as listed. -/
theorem phaseChangesOnlyAsListed : Obligations.PhaseChangesOnlyAsListed := by
  intro s t h
  obtain ⟨p, rest, -, rfl⟩ | ⟨sp, a, v, rest, -, hfill⟩ | ⟨sp, a, rest, -, hread⟩ | ⟨sp, n, rest, -, hprovide⟩ |
    ⟨rest, -, hedge⟩ := step_cases h
  · exact .inl rfl
  · obtain ⟨-, -, rfl⟩ := hostFill_cases hfill
    exact .inl (by simp)
  · obtain ⟨-, -, rfl⟩ := hostRead_cases hread
    exact .inl rfl
  · obtain ⟨-, rfl⟩ := hostProvide_cases hprovide
    exact .inl rfl
  · obtain ⟨hrst, rfl⟩ | ⟨-, hphase, hvalid, haccept⟩ | ⟨-, hphase, hrun⟩ | ⟨-, hphase, hready, rfl⟩ | ⟨-, rfl, -⟩ :=
      clockEdge_cases hedge
    · exact .inr (.inr (.inr (.inr (.inr ⟨rfl, hrst⟩))))
    · by_cases hstart : StartsRun s.pins.cmdData
      · exact .inr (.inl ⟨hphase, acceptStep_phase_of_startsRun hstart haccept, hvalid, hstart⟩)
      · exact .inr (.inr (.inl ⟨hphase,
          (acceptStep_phase_resp_or_startsRun haccept).resolve_right hstart, hvalid, hstart⟩))
    · obtain hbyte | ⟨hsidx, hcur, d, rfl⟩ := runStep_handlesOneByte_or_completes hrun
      · exact .inl hbyte.phase
      · exact .inr (.inr (.inr (.inl ⟨hphase, rfl, hsidx, hcur⟩)))
    · exact .inr (.inr (.inr (.inr (.inl ⟨hphase, rfl, hready⟩))))
    · exact .inl rfl

/-- Settles O41: a run step handles one byte, or completes the run and writes the response alone. -/
theorem operandsStandStillWhileRunning : Obligations.OperandsStandStillWhileRunning := by
  intro s t rest hedge hphase hrst h
  rw [step_of_edgeNext hedge, clockEdge_run (by exact hrst) (by exact hphase)] at h
  obtain hbyte | ⟨-, -, d, rfl⟩ := runStep_handlesOneByte_or_completes h
  · exact ⟨hbyte.op, hbyte.deg, hbyte.len, hbyte.cnt, hbyte.textMask, hbyte.imgMask,
      .inl ⟨hbyte.phase.trans hphase, hbyte.cur⟩⟩
  · exact ⟨rfl, rfl, rfl, rfl, rfl, rfl, .inr ⟨rfl, rfl⟩⟩

/-- Settles O36, line by line of the two ports. -/
theorem portLinesFollowThePhase : Obligations.PortLinesFollowThePhase := by
  intro s
  refine ⟨by simp [busy], by simp [cmdReady, busy], fun hrst => by simp [rspValid, hrst], ?_, fun r => ?_⟩
  · intro hvalid
    simp only [rspValid, Bool.and_eq_true, beq_iff_eq] at hvalid
    exact hvalid.1
  · unfold rspData
    split
    · simp [*, eq_comm]
    · simp [*]

/-- Settles O56: the registers hold what the reset state writes out, and no space has a cell. -/
theorem resetStateHoldsTheStatedValues : Obligations.ResetStateHoldsTheStatedValues :=
  ⟨rfl, rfl, rfl, rfl, rfl, rfl, rfl, rfl, rfl, rfl, rfl, rfl, rfl, rfl, fun sp _ => by cases sp <;> rfl⟩

end Sys2Proof.Machine

/-! SUPPORT. The statements about the buffer spaces (`20_memory.md`): single accesses, the ownership window, what a clock edge
does to the spaces and the buffer ports, and then the order of the transactions of a whole run. -/

namespace Sys2Proof.Machine

/-! ## Single accesses (`20_memory.md` sections 5 and 10) -/

/-- A read depends on the contents of its own space alone. -/
theorem byteAt_congr {s t : State} {sp : Space} (h : t.space sp = s.space sp) (i : Nat) : t.byteAt sp i = s.byteAt sp i := by
  rw [State.byteAt, h, State.byteAt]

/-- Counting draws and showing transactions change no byte of any space. -/
@[simp] theorem byteAt_draws_bus (s : State) (draws : Nat) (bus : List Access) (sp : Space) (i : Nat) :
    ({ s with draws := draws, bus := bus } : State).byteAt sp i = s.byteAt sp i := by
  cases sp <;> rfl

/-- A replaced space reads as what replaced it. -/
theorem byteAt_setSpace_same (sp : Space) (m : Memory) (s : State) (i : Nat) :
    (s.setSpace sp m).byteAt sp i = Memory.read m i := by
  rw [State.byteAt, setSpace_space_same]

/-- Showing a transaction changes no byte of any space. -/
@[simp] theorem byteAt_onBus (s : State) (x : Access) (sp : Space) (i : Nat) : (s.onBus x).byteAt sp i = s.byteAt sp i := by
  cases sp <;> rfl

/-- A stored byte is the byte there (R47). -/
theorem byteAt_setSpace_write_same (sp : Space) (a : Nat) (v : Byte) (s : State) :
    (s.setSpace sp (Memory.write (s.space sp) a v)).byteAt sp a = some v := by
  rw [byteAt_setSpace_same, read_write_same]

/-- A stored byte changes no other byte of any space (R47). -/
theorem byteAt_setSpace_write_other {sp sp' : Space} {a i : Nat} (v : Byte) (s : State) (h : sp' ≠ sp ∨ i ≠ a) :
    (s.setSpace sp (Memory.write (s.space sp) a v)).byteAt sp' i = s.byteAt sp' i := by
  by_cases hsp : sp' = sp
  · subst hsp
    rw [byteAt_setSpace_same, read_write_other _ _ (h.resolve_left (fun hne => hne rfl)), State.byteAt]
  · exact byteAt_congr (setSpace_space_other hsp _ _) i

/-- Settles O46: the byte stored is the byte found, other bytes stay, and a read changes only draws and bus. -/
theorem readReturnsTheByteLastWritten : Obligations.ReadReturnsTheByteLastWritten := by
  refine ⟨fun sp a v s t h => ?_, fun sp a s t v h => ?_⟩
  · obtain ⟨hstorage, rfl⟩ := memWrite_cases h
    refine ⟨?_, fun sp' i hne => by rw [byteAt_onBus, byteAt_setSpace_write_other v s hne]⟩
    have hfound := byteAt_setSpace_write_same sp a.toNat v s
    rw [← byteAt_onBus _ ⟨sp, .write, a, v⟩] at hfound
    rw [memRead_ok ((inExtent_congr (by simp) sp a).trans hstorage), draw_of_written hfound]
    exact ⟨_, rfl⟩
  · obtain ⟨-, hr⟩ := memRead_cases h
    cases hr
    exact ⟨fun w hw => by rw [draw_of_written hw], fun sp' i => byteAt_draws_bus s _ _ sp' i⟩

/-- Settles O47: the free draw of R56, twice in a row. -/
theorem unwrittenByteReadsAsAFreshDraw : Obligations.UnwrittenByteReadsAsAFreshDraw := by
  intro sp a s t v hnone h
  obtain ⟨hstorage, hr⟩ := memRead_cases h
  rw [draw_of_unwritten hnone] at hr
  cases hr
  refine ⟨rfl, rfl, (byteAt_draws_bus s _ _ sp _).trans hnone, ?_⟩
  rw [memRead_ok (by exact hstorage), draw_of_unwritten ((byteAt_draws_bus s _ _ sp _).trans hnone)]
  exact ⟨_, rfl⟩

/-! ## The host's accesses and the ownership window (`20_memory.md` sections 7 and 10) -/

/-- The host's next move is a fill. -/
theorem step_fill {sp : Space} {a : Addr} {v : Byte} {s : State} {rest : List HostMove}
    (h : s.host.script = .fill sp a v :: rest) : step s = hostFill sp a v (s.begin rest) := by
  rw [step, advance, h]; rfl

/-- The host's next move is a read. -/
theorem step_read {sp : Space} {a : Addr} {s : State} {rest : List HostMove}
    (h : s.host.script = .read sp a :: rest) : step s = hostRead sp a (s.begin rest) := by
  rw [step, advance, h]; rfl

/-- Beginning a step moves neither the ownership window nor the storage. -/
@[simp] theorem engineOwns_begin (s : State) (rest : List HostMove) (sp : Space) (a : Addr) :
    engineOwns (s.begin rest) sp a = engineOwns s sp a := rfl

@[simp] theorem inExtent_begin (s : State) (rest : List HostMove) (sp : Space) (a : Addr) :
    (s.begin rest).inExtent sp a = s.inExtent sp a := rfl

/-- There is no storage from the end of the extent on (R55). -/
theorem inExtent_eq_false {sp : Space} {a : Addr} {s : State} (h : s.host.extents.of sp ≤ a.toNat) :
    s.inExtent sp a = false := by
  simpa [State.inExtent] using h

/-- Settles O48, access by access. -/
theorem accessBeyondTheStorageIsRefused : Obligations.AccessBeyondTheStorageIsRefused := by
  intro sp a v s hbeyond
  have hstorage := inExtent_eq_false hbeyond
  refine ⟨memRead_refused hstorage, memWrite_refused hstorage, fun rest howns => ⟨fun hfill => ?_, fun hread => ?_⟩⟩
  · rw [step_fill hfill, hostFill]; simp [howns, hstorage]
  · rw [step_read hread, hostRead]; simp [howns, hstorage]

/-- The accept step of a valid EMBED (R102). -/
theorem exec_embed_of_admissible {d : Degree} {len cnt : Len} (s : State) (h : admissible d len cnt = true) :
    exec (.embed d.field len cnt) s = .next (startRun 0x3 d len cnt 0 s) := by
  simp [exec, execEmbed, h]

/-- The accept step of a valid EXTRACT (R122). -/
theorem exec_extract_of_admissible {d : Degree} {len cnt : Len} (s : State) (h : admissible d len cnt = true) :
    exec (.extract d.field len cnt) s =
      .next { startRun 0x4 d len cnt (BitVec.ofNat 32 Config.headerSize) s with acc := 0 } := by
  simp [exec, execExtract, h]

/-- With the window open the engine owns the ranges of the command in flight (R48, R52). -/
theorem engineOwns_of_lent {s : State} {d : Degree} (sp : Space) (a : Addr) (hlent : s.host.lent = true)
    (hdeg : Degree.ofField s.deg = some d) : engineOwns s sp a = inCommandRange s.op d s.len s.cnt sp a := by
  simp [engineOwns, hlent, hdeg]

/-- The start of a valid EMBED opens the window over its ranges (R48, R52). -/
theorem engineOwns_after_embed {d : Degree} {len cnt : Len} {s t : State} (hadm : admissible d len cnt = true)
    (h : exec (.embed d.field len cnt) s = .next t) (sp : Space) (a : Addr) :
    engineOwns t sp a = inCommandRange 0x3 d len cnt sp a := by
  rw [exec_embed_of_admissible s hadm] at h
  cases h
  exact engineOwns_of_lent sp a rfl (ofField_field d)

/-- The start of a valid EXTRACT opens the window over its ranges (R48, R52). -/
theorem engineOwns_after_extract {d : Degree} {len cnt : Len} {s t : State} (hadm : admissible d len cnt = true)
    (h : exec (.extract d.field len cnt) s = .next t) (sp : Space) (a : Addr) :
    engineOwns t sp a = inCommandRange 0x4 d len cnt sp a := by
  rw [exec_extract_of_admissible s hadm] at h
  cases h
  exact engineOwns_of_lent sp a rfl (ofField_field d)

/-- With the window closed the engine owns nothing (R52). -/
theorem engineOwns_of_not_lent {s : State} (sp : Space) (a : Addr) (hlent : s.host.lent = false) :
    engineOwns s sp a = false := by
  simp [engineOwns, hlent]

/-- Settles O49: the window opens over the command's ranges, refuses the host there, and closes with the handshake. -/
theorem hostHasNoMoveOnTheCommandsRanges : Obligations.HostHasNoMoveOnTheCommandsRanges := by
  refine ⟨fun s t d len cnt a hadm => ⟨fun h => ?_, fun h => ?_⟩,
    fun s sp a v rest howns => ⟨fun hfill => ?_, fun hread => ?_⟩, fun s sp a => engineOwns_of_not_lent sp a rfl⟩
  · simp [engineOwns_after_embed hadm h, inCommandRange]
  · simp [engineOwns_after_extract hadm h, inCommandRange]
  · rw [step_fill hfill, hostFill]; simp [howns]
  · rw [step_read hread, hostRead]; simp [howns]

/-! ## What a clock edge does to the spaces and the buffer ports (`20_memory.md` section 1) -/

/-- The engine may make this transaction: it reads `IMG`, writes `OUT`, and reads or writes `SYM` (R41 to R43). -/
def Access.Allowed (x : Access) : Prop := (x.space = .img → x.kind = .read) ∧ (x.space = .out → x.kind = .write)

@[simp] theorem allowed_img_read (a : Addr) (v : Byte) : Access.Allowed ⟨.img, .read, a, v⟩ := ⟨fun _ => rfl, nofun⟩

@[simp] theorem allowed_out_write (a : Addr) (v : Byte) : Access.Allowed ⟨.out, .write, a, v⟩ := ⟨nofun, fun _ => rfl⟩

@[simp] theorem allowed_sym (kind : AccessKind) (a : Addr) (v : Byte) : Access.Allowed ⟨.sym, kind, a, v⟩ := ⟨nofun, nofun⟩

/-- `t` is `s` after a run step that keeps to the buffer ports of its command: `IMG` is kept, only an EMBED stores in `OUT`
and only an EXTRACT in `SYM`, and the transactions added to the bus are allowed; the input lines are the host's. -/
structure KeepsToItsPorts (s t : State) : Prop where
  img : t.img = s.img
  sym : s.op ≠ 0x4 → t.sym = s.sym
  out : s.op ≠ 0x3 → t.out = s.out
  bus : (∀ x ∈ s.bus, x.Allowed) → ∀ x ∈ t.bus, x.Allowed
  pins : t.pins = s.pins

/-- A header or tail step of EMBED (R103, R105). -/
theorem copyByte_keepsToItsPorts {s t : State} (hop : s.op = 0x3) (h : copyByte s = .ok t) : KeepsToItsPorts s t := by
  obtain ⟨-, -, rfl⟩ := copyByte_cases h
  exact ⟨rfl, fun _ => rfl, fun hne => absurd hop hne, fun hbus => by simpa [or_imp, forall_and] using hbus, rfl⟩

/-- A body step of EMBED (R104). -/
theorem embedBodyStep_keepsToItsPorts {d : Degree} {s t : State} (hop : s.op = 0x3) (h : embedBodyStep d s = .ok t) :
    KeepsToItsPorts s t := by
  obtain ⟨sv, s1, hsym, -, -, rfl⟩ := embedBodyStep_cases h
  obtain ⟨-, -, hr⟩ | ⟨-, hr⟩ := embedSymbol_cases hsym <;> cases hr <;>
    exact ⟨by simp, fun _ => by simp, fun hne => absurd hop hne,
      fun hbus => by simpa [or_imp, forall_and] using hbus, by simp⟩

/-- A body step of EXTRACT (R123). -/
theorem extractBodyStep_keepsToItsPorts {d : Degree} {s t : State} (hop : s.op = 0x4) (h : extractBodyStep d s = .ok t) :
    KeepsToItsPorts s t := by
  obtain ⟨-, ⟨-, -, rfl⟩ | ⟨-, rfl⟩⟩ := extractBodyStep_cases h
  · exact ⟨rfl, fun hne => absurd hop hne, fun _ => rfl, fun hbus => by simpa [or_imp, forall_and] using hbus, rfl⟩
  · exact ⟨rfl, fun _ => rfl, fun _ => rfl, fun hbus => by simpa [or_imp, forall_and] using hbus, rfl⟩

/-- Completion touches no memory (R106, R124). -/
theorem completeRun_keepsToItsPorts (d : Degree) (s : State) : KeepsToItsPorts s (completeRun d s) :=
  ⟨rfl, fun _ => rfl, fun _ => rfl, id, rfl⟩

/-- Every run step keeps to the ports of its command (R41 to R43, R138). -/
theorem runStep_keepsToItsPorts {s t : State} (h : runStep s = .next t) : KeepsToItsPorts s t := by
  obtain ⟨d, -, -, -, -, hstep⟩ := runStep_cases h
  obtain ⟨hop, -, hcopy⟩ | ⟨hop, -, -, hbody⟩ | ⟨hop, -, -, -, hcopy⟩ | ⟨-, -, -, -, rfl⟩ | ⟨hop, -, hbody⟩ | ⟨-, -, rfl⟩ :=
    hstep
  · exact copyByte_keepsToItsPorts hop hcopy
  · exact embedBodyStep_keepsToItsPorts hop hbody
  · exact copyByte_keepsToItsPorts hop hcopy
  · exact completeRun_keepsToItsPorts d s
  · exact extractBodyStep_keepsToItsPorts hop hbody
  · exact completeRun_keepsToItsPorts d s

/-- A clock edge is a run step, or touches no space and no buffer port (R136, R140, R143, R171). -/
theorem clockEdge_run_or_no_access {s t : State} (h : clockEdge s = .next t) :
    (s.phase = .run ∧ s.pins.rst = false ∧ runStep s = .next t) ∨
    ((s.phase = .run → s.pins.rst = true) ∧ t.img = s.img ∧ t.sym = s.sym ∧ t.out = s.out ∧ t.bus = s.bus) := by
  obtain ⟨hrst, rfl⟩ | ⟨-, hphase, -, haccept⟩ | ⟨hrst, hphase, hrun⟩ | ⟨-, hphase, -, rfl⟩ | ⟨-, rfl, hwait⟩ :=
    clockEdge_cases h
  · rw [resetEdge_eq]
    exact .inr ⟨fun _ => hrst, rfl, rfl, rfl, rfl⟩
  · refine .inr ⟨fun hrun => absurd (hphase.symm.trans hrun) nofun, ?_⟩
    obtain ⟨code, -, rfl⟩ | ⟨none, value, rfl⟩ | ⟨d, len, cnt, -, rfl⟩ | ⟨d, len, cnt, -, rfl⟩ := acceptStep_cases haccept <;>
      exact ⟨rfl, rfl, rfl, rfl⟩
  · exact .inl ⟨hphase, hrst, hrun⟩
  · exact .inr ⟨fun hrun => absurd (hphase.symm.trans hrun) nofun, rfl, rfl, rfl, rfl⟩
  · refine .inr ⟨fun hrun => ?_, rfl, rfl, rfl, rfl⟩
    simp [hrun] at hwait

/-- Settles O43: the run step keeps to its ports, and no other clock edge has a transaction. -/
theorem engineReadsImgAndWritesOutOnly : Obligations.EngineReadsImgAndWritesOutOnly := by
  intro s t rest hedge h
  rw [step_of_edgeNext hedge] at h
  obtain ⟨hphase, hrst, hrun⟩ | ⟨-, himg, -, -, hbus⟩ := clockEdge_run_or_no_access h
  · have hports := runStep_keepsToItsPorts hrun
    exact ⟨hports.img, hports.bus (by simp), fun _ => ⟨hphase, hrst⟩⟩
  · rw [begin_bus] at hbus
    exact ⟨himg, by simp [hbus], fun hne => absurd hbus hne⟩

/-- Settles O44, by the command in flight. -/
theorem onlyEmbedWritesOutOnlyExtractWritesSym : Obligations.OnlyEmbedWritesOutOnlyExtractWritesSym := by
  intro s t rest hedge h
  rw [step_of_edgeNext hedge] at h
  obtain ⟨hphase, -, hrun⟩ | ⟨-, -, hsym, hout, -⟩ := clockEdge_run_or_no_access h
  · have hports := runStep_keepsToItsPorts hrun
    exact ⟨fun hne => hports.out (hne.resolve_right (fun hn => hn hphase)),
      fun hne => hports.sym (hne.resolve_right (fun hn => hn hphase))⟩
  · exact ⟨fun _ => hout, fun _ => hsym⟩

/-! ## Where an address stands in the carrier region (`20_memory.md` rule R44) -/

/-- The chunk carried at the place of chunk `c` of symbol `k` (R44). -/
theorem chunkOf_carrier {d : Degree} {i k c : Nat} (hc : c < d.steps) (hi : i = Config.headerSize + k * d.steps + c) :
    chunkOf d i = c := by
  rw [hi, chunkOf, Nat.add_assoc, Nat.add_sub_cancel_left, Nat.mul_comm, Nat.mul_add_mod, Nat.mod_eq_of_lt hc]

/-- The symbol carried at the place of chunk `c` of symbol `k` (R44). -/
theorem symbolOf_carrier {d : Degree} {i k c : Nat} (hc : c < d.steps) (hi : i = Config.headerSize + k * d.steps + c) :
    symbolOf d i = k := by
  rw [hi, symbolOf, Nat.add_assoc, Nat.add_sub_cancel_left, Nat.mul_comm, Nat.mul_add_div (steps_pos d), Nat.div_eq_of_lt hc,
    Nat.add_zero]

/-- The chunks of an earlier symbol lie below those of a later one (R44). -/
theorem mul_steps_add_lt {d : Degree} {k c n : Nat} (hk : k < n) (hc : c < d.steps) : k * d.steps + c < n * d.steps :=
  calc k * d.steps + c < (k + 1) * d.steps := by rw [Nat.add_one_mul]; omega
    _ ≤ n * d.steps := Nat.mul_le_mul_right _ hk

/-- The chunks of the first `n` symbols stand in carrier bytes (R44). -/
theorem isCarrier_carrier {d : Degree} {i k c n : Nat} (hk : k < n) (hc : c < d.steps)
    (hi : i = Config.headerSize + k * d.steps + c) : isCarrier d n i = true := by
  have := mul_steps_add_lt hk hc
  simp only [isCarrier, Bool.and_eq_true, decide_eq_true_eq]
  omega

/-- The header holds no carrier byte (R44). -/
theorem isCarrier_header {d : Degree} {n i : Nat} (h : i < Config.headerSize) : isCarrier d n i = false := by
  simp [isCarrier, h]

/-- The tail holds no carrier byte (R44). -/
theorem isCarrier_tail {d : Degree} {n i : Nat} (h : Config.headerSize + n * d.steps ≤ i) : isCarrier d n i = false := by
  simp [isCarrier, h]

/-- EMBED copies a byte that is no carrier: one read, one write (R49). -/
theorem embedAccesses_copy {d : Degree} {cnt : Len} {i : Nat} (h : isCarrier d cnt.toNat i = false) :
    embedAccesses d cnt i = [(Space.img, AccessKind.read, i), (Space.out, AccessKind.write, i)] := by
  simp [embedAccesses, h]

/-- EMBED's transactions at the place of chunk `c` of symbol `k`: the symbol is read with its first chunk (R49). -/
theorem embedAccesses_carrier {d : Degree} {cnt : Len} {i k c : Nat} (hk : k < cnt.toNat) (hc : c < d.steps)
    (hi : i = Config.headerSize + k * d.steps + c) :
    embedAccesses d cnt i = (if c = 0 then [(Space.sym, AccessKind.read, k)] else []) ++
      [(Space.img, AccessKind.read, i), (Space.out, AccessKind.write, i)] := by
  simp [embedAccesses, isCarrier_carrier hk hc hi, chunkOf_carrier hc hi, symbolOf_carrier hc hi]

/-- EXTRACT's transactions at the place of chunk `c` of symbol `k`: the symbol is written with its last chunk (R49). -/
theorem extractAccesses_carrier {d : Degree} {i k c : Nat} (hc : c < d.steps)
    (hi : i = Config.headerSize + k * d.steps + c) :
    extractAccesses d i = (Space.img, AccessKind.read, i) ::
      (if c + 1 = d.steps then [(Space.sym, AccessKind.write, k)] else []) := by
  rw [extractAccesses, chunkOf_carrier hc hi, symbolOf_carrier hc hi]

/-! ## What one run step shows on the bus (`20_memory.md` rules R48, R49) -/

/-- The places of the transactions a state shows, in order (R49). -/
def State.busPlaces (s : State) : List (Space × AccessKind × Nat) := s.bus.map Access.place

/-- A header or tail step of EMBED where there is storage: the read, then the write (R103, R105). -/
theorem copyByte_busPlaces {s : State} (himg : s.inExtent .img s.cur = true) (hout : s.inExtent .out s.cur = true) :
    ∃ t, copyByte s = .ok t ∧
      t.busPlaces = s.busPlaces ++ [(Space.img, AccessKind.read, s.cur.toNat), (Space.out, AccessKind.write, s.cur.toNat)] :=
  ⟨_, copyByte_ok himg hout, by simp [State.busPlaces, Access.place]⟩

/-- Fetching the symbol where there is storage: a read with the first chunk, nothing after it (R104). -/
theorem embedSymbol_busPlaces {s : State} (hsym : s.inExtent .sym s.sidx = true) :
    ∃ sv s1, embedSymbol s = .ok (sv, s1) ∧
      s1.busPlaces = s.busPlaces ++ if s.chunk.toNat = 0 then [(Space.sym, AccessKind.read, s.sidx.toNat)] else [] := by
  by_cases hfirst : s.chunk = 0
  · refine ⟨_, _, by rw [embedSymbol, if_pos hfirst, memRead_ok hsym], ?_⟩
    simp [State.busPlaces, Access.place, hfirst]
  · refine ⟨_, _, by rw [embedSymbol, if_neg hfirst], ?_⟩
    have : s.chunk.toNat ≠ 0 := fun h => hfirst (BitVec.eq_of_toNat_eq h)
    simp [this]

/-- A body step of EMBED where there is storage: the symbol with its first chunk, then the read, then the write (R104). -/
theorem embedBodyStep_busPlaces (d : Degree) {s : State} (hsym : s.inExtent .sym s.sidx = true)
    (himg : s.inExtent .img s.cur = true) (hout : s.inExtent .out s.cur = true) :
    ∃ t, embedBodyStep d s = .ok t ∧
      t.busPlaces = s.busPlaces ++ ((if s.chunk.toNat = 0 then [(Space.sym, AccessKind.read, s.sidx.toNat)] else []) ++
        [(Space.img, AccessKind.read, s.cur.toNat), (Space.out, AccessKind.write, s.cur.toNat)]) := by
  obtain ⟨sv, s1, hfetch, hplaces⟩ := embedSymbol_busPlaces hsym
  refine ⟨_, embedBodyStep_ok hfetch himg hout, ?_⟩
  rw [← List.append_assoc, ← hplaces]
  simp [State.busPlaces, Access.place]

/-- A body step of EXTRACT where there is storage: the read, then with the last chunk the symbol (R123). -/
theorem extractBodyStep_busPlaces (d : Degree) {s : State} (himg : s.inExtent .img s.cur = true)
    (hsym : s.inExtent .sym s.sidx = true) :
    ∃ t, extractBodyStep d s = .ok t ∧
      t.busPlaces = s.busPlaces ++ (Space.img, AccessKind.read, s.cur.toNat) ::
        (if s.chunk.toNat + 1 = d.steps then [(Space.sym, AccessKind.write, s.sidx.toNat)] else []) := by
  cases hlast : s.lastChunk d with
  | true =>
    refine ⟨_, extractBodyStep_ok_last hlast himg hsym, ?_⟩
    have hlast : s.chunk.toNat + 1 = d.steps := by simpa [State.lastChunk] using hlast
    simp [State.busPlaces, Access.place, hlast]
  | false =>
    refine ⟨_, extractBodyStep_ok_within hlast himg, ?_⟩
    have hlast : s.chunk.toNat + 1 ≠ d.steps := by simpa [State.lastChunk] using hlast
    simp [State.busPlaces, Access.place, hlast]

/-! ## What a run step does at a place of the run (`44_sequencing.md` rule R138) -/

/-- What the run invariant says at the degree in flight. -/
theorem runInv_at_degree {d : Degree} {s : State} (hinv : RunInv s) (hdeg : Degree.ofField s.deg = some d) :
    admissible d s.len s.cnt = true ∧ (s.op = 0x3 → EmbedPosition d s) ∧ (s.op = 0x4 → ExtractPosition d s) := by
  obtain ⟨d', hdeg', -, -, hadm, hpos⟩ := hinv
  obtain rfl : d' = d := Option.some.inj (hdeg'.symm.trans hdeg)
  exact ⟨hadm, fun hop => by simpa [hop] using hpos, fun hop => by simpa [hop] using hpos⟩

/-- The run step of `s` handles one byte and shows these transactions. -/
def StepsOverByte (s : State) (places : List (Space × AccessKind × Nat)) : Prop :=
  ∃ t, runStep s = .next t ∧ HandlesOneByte s t ∧ t.busPlaces = s.busPlaces ++ places

/-- A copy step of EMBED where there is storage, at a byte that is no carrier (R103, R105). -/
theorem stepsOverByte_of_copyByte {d : Degree} {s : State} (hstep : runStep s = outcomeOf (copyByte s))
    (himg : s.inExtent .img s.cur = true) (hout : s.inExtent .out s.cur = true)
    (hcarrier : isCarrier d s.cnt.toNat s.cur.toNat = false) :
    StepsOverByte s (embedAccesses d s.cnt s.cur.toNat) := by
  obtain ⟨t, ht, hplaces⟩ := copyByte_busPlaces himg hout
  exact ⟨t, by rw [hstep, outcomeOf_next_iff, ht], (copyByte_handlesOneByte ht).1,
    by rw [hplaces, embedAccesses_copy hcarrier]⟩

/-- An EMBED run step below `LEN`, where there is storage, handles one byte with the transactions of its address (R49). -/
theorem runStep_embed_byte {d : Degree} {s : State} (hinv : RunInv s) (hdeg : Degree.ofField s.deg = some d)
    (hop : s.op = 0x3) (hstorage : EmbedStorage s s.len s.cnt) (hcur : s.cur < s.len) :
    StepsOverByte s (embedAccesses d s.cnt s.cur.toNat) := by
  obtain ⟨-, hpos, -⟩ := runInv_at_degree hinv hdeg
  obtain ⟨hsidx, hcurLe⟩ := runInv_bounds hinv
  obtain ⟨himgStorage, hsymStorage, houtStorage⟩ := hstorage
  have himg := inExtent_of_provides himgStorage hcur
  have hout := inExtent_of_provides houtStorage hcur
  have hrun (hchunk : s.chunk.toNat < d.steps) := runStep_embed hdeg hchunk hsidx hcurLe hop
  have hfirst (hchunk : s.chunk = 0) : s.chunk.toNat < d.steps := by simpa [hchunk] using steps_pos d
  obtain ⟨hheader, -, hchunk⟩ | ⟨hmore, hchunk, hplace⟩ | ⟨hend, hchunk, htail, -⟩ := hpos hop
  · exact stepsOverByte_of_copyByte (by rw [hrun (hfirst hchunk), embedRunStep_header hheader]) himg hout
      (isCarrier_header hheader)
  · obtain ⟨t, ht, hplaces⟩ := embedBodyStep_busPlaces d (inExtent_of_provides hsymStorage hmore) himg hout
    refine ⟨t, ?_, (embedBodyStep_handlesOneByte ht).1, by rw [hplaces, embedAccesses_carrier hmore hchunk hplace]⟩
    rw [hrun hchunk, embedRunStep_body (by omega) hmore, outcomeOf_next_iff, ht]
  · exact stepsOverByte_of_copyByte (by rw [hrun (hfirst hchunk), embedRunStep_tail (by omega) hend hcur]) himg hout
      (isCarrier_tail htail)

/-- An EMBED at `LEN` has every symbol done, and its run step completes (R106). -/
theorem runStep_embed_at_len {d : Degree} {s : State} (hinv : RunInv s) (hdeg : Degree.ofField s.deg = some d)
    (hop : s.op = 0x3) (hcur : s.cur = s.len) : runStep s = .next (completeRun d s) := by
  obtain ⟨hadm, hpos, -⟩ := runInv_at_degree hinv hdeg
  obtain ⟨hsidx, hcurLe⟩ := runInv_bounds hinv
  have hroom := carriers_lt_len hadm
  rw [← hcur] at hroom
  obtain ⟨hheader, -, -⟩ | ⟨hmore, hchunk, hplace⟩ | ⟨hend, hchunk, -, -⟩ := hpos hop
  · omega
  · have := mul_steps_add_lt hmore hchunk
    omega
  · rw [runStep_embed hdeg (by simpa [hchunk] using steps_pos d) hsidx hcurLe hop,
      embedRunStep_completion (by omega) hend hcur, outcomeOf_next_iff]

/-- An EXTRACT has symbols left exactly while its cursor is in the carrier region (R14, R44). -/
theorem sidx_lt_cnt_iff {d : Degree} {s : State} (hpos : ExtractPosition d s) :
    s.sidx < s.cnt ↔ s.cur.toNat < Config.headerSize + s.cnt.toNat * d.steps := by
  obtain ⟨hsidx, hchunk, hend, hplace⟩ := hpos
  refine ⟨fun hmore => ?_, fun hcur => ?_⟩
  · have := mul_steps_add_lt hmore hchunk
    omega
  · by_contra hdone
    have hlast : s.sidx = s.cnt := by bv_omega
    have hzero : s.chunk.toNat = 0 := by rw [hend hlast]; rfl
    rw [hlast, hzero] at hplace
    omega

/-- An EXTRACT run step in the carrier region, where there is storage, handles one byte with the transactions of its address
(R49). -/
theorem runStep_extract_byte {d : Degree} {s : State} (hinv : RunInv s) (hdeg : Degree.ofField s.deg = some d)
    (hop : s.op = 0x4) (hstorage : ExtractStorage s d s.cnt)
    (hcur : s.cur.toNat < Config.headerSize + s.cnt.toNat * d.steps) :
    StepsOverByte s (extractAccesses d s.cur.toNat) := by
  have ⟨_, _, hpos⟩ := runInv_at_degree hinv hdeg
  obtain ⟨hsidx, hcurLe⟩ := runInv_bounds hinv
  obtain ⟨himgStorage, hsymStorage⟩ := hstorage
  have hmore := (sidx_lt_cnt_iff (hpos hop)).mpr hcur
  obtain ⟨-, hchunk, -, hplace⟩ := hpos hop
  obtain ⟨t, ht, hplaces⟩ :=
    extractBodyStep_busPlaces d (inExtent_of_provides himgStorage hcur) (inExtent_of_provides hsymStorage hmore)
  refine ⟨t, ?_, (extractBodyStep_handlesOneByte ht).1, by rw [hplaces, extractAccesses_carrier hchunk hplace]⟩
  rw [runStep_extract hdeg hchunk hsidx hcurLe hop, extractRunStep_body hmore, outcomeOf_next_iff, ht]

/-- An EXTRACT behind its last carrier byte completes (R124). -/
theorem runStep_extract_at_end {d : Degree} {s : State} (hinv : RunInv s) (hdeg : Degree.ofField s.deg = some d)
    (hop : s.op = 0x4) (hcur : s.cur.toNat = Config.headerSize + s.cnt.toNat * d.steps) :
    runStep s = .next (completeRun d s) := by
  have ⟨_, _, hpos⟩ := runInv_at_degree hinv hdeg
  obtain ⟨hsidx, hcurLe⟩ := runInv_bounds hinv
  have hend : ¬ s.sidx < s.cnt := by rw [sidx_lt_cnt_iff (hpos hop)]; omega
  obtain ⟨-, hchunk, -, -⟩ := hpos hop
  rw [runStep_extract hdeg hchunk hsidx hcurLe hop, extractRunStep_completion (by bv_omega), outcomeOf_next_iff]

/-! ## A run, address by address (`44_sequencing.md` rules R135, R138) -/

/-- `s` is in the run of `op` at degree `d` with `LEN` and `CNT` as given, at address `i`; only clock edges follow, and the
storage is what `s0` had when the run began. -/
structure RunAt (s0 : State) (op : BitVec 4) (d : Degree) (len cnt : Len) (i : Nat) (s : State) : Prop where
  script : s.host.script = []
  extents : s.host.extents = s0.host.extents
  rst : s.pins.rst = false
  phase : s.phase = .run
  op : s.op = op
  deg : Degree.ofField s.deg = some d
  len : s.len = len
  cnt : s.cnt = cnt
  inv : RunInv s
  cur : s.cur.toNat = i

/-- The step of a run is its run step. -/
theorem RunAt.step_eq {s0 s : State} {op : BitVec 4} {d : Degree} {len cnt : Len} {i : Nat}
    (h : RunAt s0 op d len cnt i s) : step s = runStep (s.begin []) := by
  rw [step_of_edgeNext (.inr ⟨h.script, rfl⟩), clockEdge_run (s := s.begin []) h.rst h.phase]

/-- The storage behind a space is what it was when the run began. -/
theorem RunAt.provides {s0 s : State} {op : BitVec 4} {d : Degree} {len cnt : Len} {i n : Nat} {sp : Space}
    (h : RunAt s0 op d len cnt i s) (hs0 : Provides s0 sp n) : Provides (s.begin []) sp n := by
  rw [Provides, begin_host, h.extents]
  exact hs0

/-- A step that handles one byte leads to the next address. -/
theorem RunAt.next {s0 s t : State} {op : BitVec 4} {d : Degree} {len cnt : Len} {i : Nat}
    (h : RunAt s0 op d len cnt i s) (hi : i < len.toNat) (hrun : runStep (s.begin []) = .next t)
    (hbyte : HandlesOneByte (s.begin []) t) : RunAt s0 op d len cnt (i + 1) t where
  script := by rw [hbyte.host, begin_host]
  extents := by rw [hbyte.host, begin_host, h.extents]
  rst := by rw [(runStep_keepsToItsPorts hrun).pins, begin_pins, h.rst]
  phase := hbyte.phase.trans h.phase
  op := hbyte.op.trans h.op
  deg := by rw [hbyte.deg, begin_deg, h.deg]
  len := hbyte.len.trans h.len
  cnt := hbyte.cnt.trans h.cnt
  inv := by
    obtain ⟨-, hinv⟩ | ⟨d', rfl⟩ := runStep_keeps_runInv (s := s.begin []) h.inv hrun
    · exact hinv
    · exact absurd (hbyte.phase.trans h.phase) nofun
  cur := by
    have hcur := h.cur
    rw [hbyte.cur, begin_cur]
    bv_omega

/-- A run that shows the transactions `f i` at each address `i` below `e`, and none with its last step, shows those of all its
addresses in turn (R49). -/
theorem traffic_of_run {At : Nat → State → Prop} {f : Nat → List (Space × AccessKind × Nat)} {e : Nat}
    (hbyte : ∀ i s, i < e → At i s → ∃ t, step s = .next t ∧ t.busPlaces = f i ∧ At (i + 1) t)
    (hend : ∀ s, At e s → ∃ t, step s = .next t ∧ t.bus = []) (m : Nat) :
    ∀ i s, i + m = e → At i s → (traffic (m + 1) s).map Access.place = (List.range' i m).flatMap f := by
  induction m with
  | zero =>
    intro i s hi hs
    obtain rfl : i = e := hi
    obtain ⟨t, ht, hbus⟩ := hend s hs
    simp [traffic, ht, hbus]
  | succ m ih =>
    intro i s hi hs
    obtain ⟨t, ht, hplaces, hnext⟩ := hbyte i s (by omega) hs
    rw [traffic, ht]
    simp only [List.map_append, ih (i + 1) t (by omega) hnext, List.range'_succ, List.flatMap_cons]
    rw [← hplaces, State.busPlaces]

/-! ## The command on the port (`30_encoding.md` rule R61, `44_sequencing.md` rules R136, R137) -/

@[simp] theorem opField_descriptor (op : BitVec 4) (deg : DegField) (len cnt : Len) :
    opField (descriptor op deg len cnt) = op := by
  apply BitVec.eq_of_getLsbD_eq
  intro i hi
  simp [opField, descriptor_getLsbD, hi]

@[simp] theorem degField_descriptor (op : BitVec 4) (deg : DegField) (len cnt : Len) :
    degField (descriptor op deg len cnt) = deg := by
  apply BitVec.eq_of_getLsbD_eq
  intro i hi
  simp [degField, descriptor_getLsbD, hi, show 4 + i < 8 by omega]

@[simp] theorem rsvField_descriptor (op : BitVec 4) (deg : DegField) (len cnt : Len) :
    rsvField (descriptor op deg len cnt) = 0 := by
  apply BitVec.eq_of_getLsbD_eq
  intro i hi
  simp [rsvField, descriptor_getLsbD, show ¬ 8 + i < 4 by omega, show 8 + i < 32 by omega]

@[simp] theorem lenField_descriptor (op : BitVec 4) (deg : DegField) (len cnt : Len) :
    lenField (descriptor op deg len cnt) = len := by
  apply BitVec.eq_of_getLsbD_eq
  intro i hi
  simp [lenField, descriptor_getLsbD, hi, show ¬ 32 + i < 4 by omega, show ¬ 32 + i < 8 by omega, show 32 + i < 64 by omega]

@[simp] theorem cntField_descriptor (op : BitVec 4) (deg : DegField) (len cnt : Len) :
    cntField (descriptor op deg len cnt) = cnt := by
  apply BitVec.eq_of_getLsbD_eq
  intro i hi
  simp [cntField, descriptor_getLsbD, hi, show ¬ 64 + i < 4 by omega, show ¬ 64 + i < 8 by omega, show ¬ 64 + i < 32 by omega]

/-- An EMBED's descriptor decodes to it (R69). -/
theorem decode_encode_embed (deg : DegField) (len cnt : Len) :
    decode (encode (.embed deg len cnt)) = .ok (.embed deg len cnt) := by
  simp [decode, encode, Instr.opcode]

/-- An EXTRACT's descriptor decodes to it (R69). -/
theorem decode_encode_extract (deg : DegField) (len cnt : Len) :
    decode (encode (.extract deg len cnt)) = .ok (.extract deg len cnt) := by
  simp [decode, encode, Instr.opcode]

/-- The step of a waiting engine with a descriptor on its port is the accept step (R136). -/
theorem step_of_presents {s : State} {cmd : Cmd} (h : Presents s cmd) : step s = acceptStep cmd (s.begin []) := by
  obtain ⟨hphase, hrst, hvalid, hcmd, hscript⟩ := h
  rw [step_of_edgeNext (.inr ⟨hscript, rfl⟩), clockEdge_accept (s := s.begin []) hrst hphase hvalid, begin_pins, hcmd]

/-- A valid EMBED on the port starts its run at address 0 (R102). -/
theorem step_starts_embed {s : State} {d : Degree} {len cnt : Len} (h : Presents s (encode (.embed d.field len cnt)))
    (hadm : admissible d len cnt = true) :
    ∃ t, step s = .next t ∧ t.bus = [] ∧ RunAt s 0x3 d len cnt 0 t := by
  refine ⟨startRun 0x3 d len cnt 0 (s.begin []), ?_, rfl, ?_⟩
  · rw [step_of_presents h, acceptStep, decode_encode_embed]
    exact exec_embed_of_admissible _ hadm
  · obtain ⟨-, hrst, -⟩ := h
    exact ⟨rfl, rfl, hrst, rfl, rfl, ofField_field d, rfl, rfl,
      ⟨d, ofField_field d, rfl, rfl, hadm, .inl ⟨rfl, .inl ⟨by simp [Config.headerSize], rfl, rfl⟩⟩⟩, rfl⟩

/-- A valid EXTRACT on the port starts its run at the first carrier byte (R122). -/
theorem step_starts_extract {s : State} {d : Degree} {len cnt : Len} (h : Presents s (encode (.extract d.field len cnt)))
    (hadm : admissible d len cnt = true) :
    ∃ t, step s = .next t ∧ t.bus = [] ∧ RunAt s 0x4 d len cnt Config.headerSize t := by
  refine ⟨{ startRun 0x4 d len cnt (BitVec.ofNat 32 Config.headerSize) (s.begin []) with acc := 0 }, ?_, rfl, ?_⟩
  · rw [step_of_presents h, acceptStep, decode_encode_extract]
    exact exec_extract_of_admissible _ hadm
  · obtain ⟨-, hrst, -⟩ := h
    exact ⟨rfl, rfl, hrst, rfl, rfl, ofField_field d, rfl, rfl,
      ⟨d, ofField_field d, rfl, rfl, hadm, .inr ⟨rfl, bodyPosition_first rfl rfl rfl⟩⟩, rfl⟩

/-! ## The order of the transactions (`20_memory.md` sections 5 and 6) -/

/-- A step of an EMBED below `LEN` shows the transactions of its address and leads to the next one (R49). -/
theorem step_embed_byte {s0 s : State} {d : Degree} {len cnt : Len} {i : Nat} (hstorage : EmbedStorage s0 len cnt)
    (hi : i < len.toNat) (hs : RunAt s0 0x3 d len cnt i s) :
    ∃ t, step s = .next t ∧ t.busPlaces = embedAccesses d cnt i ∧ RunAt s0 0x3 d len cnt (i + 1) t := by
  obtain ⟨himg, hsym, hout⟩ := hstorage
  obtain ⟨t, hrun, hbyte, hplaces⟩ := runStep_embed_byte (s := s.begin []) hs.inv hs.deg hs.op
    (by rw [begin_len, begin_cnt, hs.len, hs.cnt]; exact ⟨hs.provides himg, hs.provides hsym, hs.provides hout⟩)
    (by rw [BitVec.lt_def, begin_cur, begin_len, hs.cur, hs.len]; exact hi)
  rw [begin_cnt, begin_cur, hs.cnt, hs.cur] at hplaces
  exact ⟨t, hs.step_eq.trans hrun, hplaces, hs.next hi hrun hbyte⟩

/-- A step of an EXTRACT in the carrier region shows the transactions of its address and leads to the next one (R49). -/
theorem step_extract_byte {s0 s : State} {d : Degree} {len cnt : Len} {i : Nat} (hadm : admissible d len cnt = true)
    (hstorage : ExtractStorage s0 d cnt) (hi : i < Config.headerSize + cnt.toNat * d.steps)
    (hs : RunAt s0 0x4 d len cnt i s) :
    ∃ t, step s = .next t ∧ t.busPlaces = extractAccesses d i ∧ RunAt s0 0x4 d len cnt (i + 1) t := by
  obtain ⟨himg, hsym⟩ := hstorage
  obtain ⟨t, hrun, hbyte, hplaces⟩ := runStep_extract_byte (s := s.begin []) hs.inv hs.deg hs.op
    (by rw [begin_cnt, hs.cnt]; exact ⟨hs.provides himg, hs.provides hsym⟩)
    (by rw [begin_cur, begin_cnt, hs.cur, hs.cnt]; exact hi)
  rw [begin_cur, hs.cur] at hplaces
  exact ⟨t, hs.step_eq.trans hrun, hplaces, hs.next (hi.trans (carriers_lt_len hadm)) hrun hbyte⟩

/-- Settles O26: the accept step shows nothing, then every address of the image shows its own transactions in turn. -/
theorem embedAccessesComeInOrder : Obligations.EmbedAccessesComeInOrder := by
  intro s d len cnt hpresents hadm hstorage
  obtain ⟨t, hstart, hbus, hat⟩ := step_starts_embed hpresents hadm
  have hend (u : State) (hu : RunAt s 0x3 d len cnt len.toNat u) : ∃ v, step u = .next v ∧ v.bus = [] :=
    ⟨_, hu.step_eq.trans (runStep_embed_at_len (s := u.begin []) hu.inv hu.deg hu.op
      (BitVec.eq_of_toNat_eq (by rw [begin_cur, begin_len, hu.cur, hu.len]))), rfl⟩
  have hrun := traffic_of_run (fun i u hi hu => step_embed_byte hstorage hi hu) hend len.toNat 0 t (Nat.zero_add _) hat
  rw [traffic, hstart, List.range_eq_range', ← hrun]
  simp [hbus]

/-- Settles O32: the accept step shows nothing, then every carrier byte shows its own transactions in turn. -/
theorem extractAccessesComeInOrder : Obligations.ExtractAccessesComeInOrder := by
  intro s d len cnt hpresents hadm hstorage
  obtain ⟨t, hstart, hbus, hat⟩ := step_starts_extract hpresents hadm
  have hend (u : State) (hu : RunAt s 0x4 d len cnt (Config.headerSize + cnt.toNat * d.steps) u) :
      ∃ v, step u = .next v ∧ v.bus = [] :=
    ⟨_, hu.step_eq.trans (runStep_extract_at_end (s := u.begin []) hu.inv hu.deg hu.op
      (by rw [begin_cur, begin_cnt, hu.cur, hu.cnt])), rfl⟩
  have hrun := traffic_of_run (fun i u hi hu => step_extract_byte hadm hstorage hi hu) hend _ _ t rfl hat
  rw [List.range'_eq_map_range, List.flatMap_map] at hrun
  rw [traffic, hstart, ← hrun]
  simp [hbus]

end Sys2Proof.Machine

/-! SUPPORT. The statements about the encoding (`30_encoding.md`): the fields of a descriptor, the decoder's answer for each
opcode, the opcode table's mask, the assembler's lines and the fields of a response, with the statement each leads to. -/

namespace Sys2Proof.Machine

open Sys2Proof.Laws.RowMatch (descriptor_and_rowMask rowMask_getLsbD)

/-! ## The decoder (`30_encoding.md` section 3, rules R65, R69) -/

/-- A descriptor whose `RSV` is not zero is illegal, whatever its opcode (R65). -/
theorem decode_reservedBits {cmd : Cmd} (hrsv : rsvField cmd ≠ 0) : decode cmd = .error (.reservedBits (rsvField cmd)) := by
  rw [decode, if_pos hrsv]

theorem decode_masks {cmd : Cmd} (hrsv : rsvField cmd = 0) (hop : opField cmd = 0x1) :
    decode cmd = .ok (.masks (degField cmd)) := by
  simp [decode, hrsv, hop]

theorem decode_capacity {cmd : Cmd} (hrsv : rsvField cmd = 0) (hop : opField cmd = 0x2) :
    decode cmd = .ok (.capacity (degField cmd) (lenField cmd)) := by
  simp [decode, hrsv, hop]

theorem decode_embed {cmd : Cmd} (hrsv : rsvField cmd = 0) (hop : opField cmd = 0x3) :
    decode cmd = .ok (.embed (degField cmd) (lenField cmd) (cntField cmd)) := by
  simp [decode, hrsv, hop]

theorem decode_extract {cmd : Cmd} (hrsv : rsvField cmd = 0) (hop : opField cmd = 0x4) :
    decode cmd = .ok (.extract (degField cmd) (lenField cmd) (cntField cmd)) := by
  simp [decode, hrsv, hop]

/-- The opcode is 0x0 or 0x5 to 0xF (R62, R65). -/
def ReservedOpcode (op : BitVec 4) : Prop := op = 0x0 ∨ 0x5 ≤ op

/-- An opcode is one of the four of the map or reserved (R62). -/
theorem opcode_cases (op : BitVec 4) : op = 0x1 ∨ op = 0x2 ∨ op = 0x3 ∨ op = 0x4 ∨ ReservedOpcode op := by
  unfold ReservedOpcode; revert op; decide

/-- No command has a reserved opcode (R62). -/
theorem not_reservedOpcode_opcode (i : Instr) : ¬ ReservedOpcode i.opcode := by
  cases i <;> simp [ReservedOpcode, Instr.opcode]

theorem decode_reservedOpcode {cmd : Cmd} (hrsv : rsvField cmd = 0) (hop : ReservedOpcode (opField cmd)) :
    decode cmd = .error (.reservedOpcode (opField cmd)) := by
  rw [decode, if_neg (by simpa using hrsv)]
  split <;> simp_all [ReservedOpcode]

/-- Everything the decoder can do: answer a command, with `RSV` zero and the command's opcode, or refuse, with `RSV` not zero
or a reserved opcode (R65, R69). -/
theorem decode_cases (cmd : Cmd) :
    (∃ i, decode cmd = .ok i ∧ rsvField cmd = 0 ∧ opField cmd = i.opcode) ∨
    (∃ r, decode cmd = .error r ∧ (rsvField cmd ≠ 0 ∨ ReservedOpcode (opField cmd))) := by
  by_cases hrsv : rsvField cmd = 0
  · obtain hop | hop | hop | hop | hop := opcode_cases (opField cmd)
    · exact .inl ⟨_, decode_masks hrsv hop, hrsv, hop⟩
    · exact .inl ⟨_, decode_capacity hrsv hop, hrsv, hop⟩
    · exact .inl ⟨_, decode_embed hrsv hop, hrsv, hop⟩
    · exact .inl ⟨_, decode_extract hrsv hop, hrsv, hop⟩
    · exact .inr ⟨_, decode_reservedOpcode hrsv hop, .inr hop⟩
  · exact .inr ⟨_, decode_reservedBits hrsv, .inl hrsv⟩

/-- Only a descriptor with `RSV` zero and the opcode of a command decodes to that command (R69). -/
theorem fields_of_decode {cmd : Cmd} {i : Instr} (h : decode cmd = .ok i) : rsvField cmd = 0 ∧ opField cmd = i.opcode := by
  obtain ⟨j, hdec, hfields⟩ | ⟨r, hdec, -⟩ := decode_cases cmd <;> rw [hdec] at h <;> cases h
  exact hfields

/-- The illegal descriptors are those with `RSV` not zero or a reserved opcode (R65). -/
theorem decode_error_iff {cmd : Cmd} :
    (∃ r, decode cmd = .error r) ↔ rsvField cmd ≠ 0 ∨ ReservedOpcode (opField cmd) := by
  obtain ⟨i, hdec, hrsv, hop⟩ | ⟨r, hdec, hillegal⟩ := decode_cases cmd
  · simp [hdec, hrsv, hop, not_reservedOpcode_opcode]
  · exact ⟨fun _ => hillegal, fun _ => ⟨r, hdec⟩⟩

/-- A MASKS decodes to itself with anything in `LEN` and `CNT` (R66). -/
theorem decode_descriptor_masks (deg : DegField) (len cnt : Len) :
    decode (descriptor 0x1 deg len cnt) = .ok (.masks deg) := by
  rw [decode_masks (rsvField_descriptor ..) (opField_descriptor ..), degField_descriptor]

/-- A CAPACITY decodes to itself with anything in `CNT` (R66). -/
theorem decode_descriptor_capacity (deg : DegField) (len cnt : Len) :
    decode (descriptor 0x2 deg len cnt) = .ok (.capacity deg len) := by
  rw [decode_capacity (rsvField_descriptor ..) (opField_descriptor ..), degField_descriptor, lenField_descriptor]

/-- Settles O1: the decoder reads back the fields the encoder wrote, command by command. -/
theorem decodeOfEncodeIsTheCommand : Obligations.DecodeOfEncodeIsTheCommand := by
  intro i
  cases i with
  | masks deg => exact decode_descriptor_masks deg 0 0
  | capacity deg len => exact decode_descriptor_capacity deg len 0
  | embed deg len cnt => exact decode_encode_embed deg len cnt
  | extract deg len cnt => exact decode_encode_extract deg len cnt

/-! ## Match and mask (`30_encoding.md` rule R68) -/

/-- A descriptor with `RSV` zero is made of its other four fields (R61). -/
theorem eq_descriptor_of_fields {cmd : Cmd} (hrsv : rsvField cmd = 0) :
    cmd = descriptor (opField cmd) (degField cmd) (lenField cmd) (cntField cmd) := by
  apply BitVec.eq_of_getLsbD_eq
  intro i hi
  rw [descriptor_getLsbD]
  split_ifs with h4 h8 h32 h64
  · simp [opField, h4]
  · simp [degField, show i - 4 < 4 by omega, show 4 + (i - 4) = i by omega]
  · have hbit := congrArg (·.getLsbD (i - 8)) hrsv
    simpa [rsvField, show i - 8 < 24 by omega, show 8 + (i - 8) = i by omega] using hbit
  · simp [lenField, show i - 32 < 32 by omega, show 32 + (i - 32) = i by omega]
  · simp [cntField, show i - 64 < 32 by omega, show 64 + (i - 64) = i by omega]

/-- The row mask covers the opcode. -/
theorem opField_and_rowMask (cmd : Cmd) : opField (cmd &&& rowMask) = opField cmd := by
  apply BitVec.eq_of_getLsbD_eq
  intro i hi
  simp [opField, hi, rowMask_getLsbD i (by omega)]

/-- The row mask covers the reserved bits. -/
theorem rsvField_and_rowMask (cmd : Cmd) : rsvField (cmd &&& rowMask) = rsvField cmd := by
  apply BitVec.eq_of_getLsbD_eq
  intro i hi
  simp [rsvField, hi, rowMask_getLsbD (8 + i) (by omega), show 8 + i < 32 by omega]

/-- `(cmd & mask) = match` looks at `RSV` and `OP` and at nothing else (R68). -/
theorem and_rowMask_eq_iff {cmd : Cmd} {op : BitVec 4} :
    cmd &&& rowMask = op.setWidth 96 ↔ rsvField cmd = 0 ∧ opField cmd = op := by
  constructor
  · intro h
    have hmasked : cmd &&& rowMask = descriptor op 0 0 0 &&& rowMask := by rw [h, descriptor_and_rowMask]
    constructor
    · rw [← rsvField_and_rowMask, hmasked, rsvField_and_rowMask, rsvField_descriptor]
    · rw [← opField_and_rowMask, hmasked, opField_and_rowMask, opField_descriptor]
  · rintro ⟨hrsv, rfl⟩
    rw [eq_descriptor_of_fields hrsv, descriptor_and_rowMask, opField_descriptor]

/-- What decodes to a command matches the command's row (R68). -/
theorem and_rowMask_of_decode {cmd : Cmd} {i : Instr} (h : decode cmd = .ok i) : cmd &&& rowMask = rowMatch i :=
  and_rowMask_eq_iff.2 (fields_of_decode h)

/-- Settles O2: a row's mask and match say that `RSV` is zero and `OP` is the row's opcode. -/
theorem descriptorIsARowExactlyWhenItMatches : Obligations.DescriptorIsARowExactlyWhenItMatches := by
  intro cmd
  have hfields (op : BitVec 4) (h : cmd &&& rowMask = op.setWidth 96) := and_rowMask_eq_iff.1 h
  refine ⟨?_, ?_, ?_, ?_, fun op => ?_⟩
  · refine ⟨fun ⟨_, h⟩ => and_rowMask_of_decode h, fun h => ?_⟩
    obtain ⟨hrsv, hop⟩ := hfields 0x1 h
    exact ⟨_, decode_masks hrsv hop⟩
  · refine ⟨fun ⟨_, _, h⟩ => and_rowMask_of_decode h, fun h => ?_⟩
    obtain ⟨hrsv, hop⟩ := hfields 0x2 h
    exact ⟨_, _, decode_capacity hrsv hop⟩
  · refine ⟨fun ⟨_, _, _, h⟩ => and_rowMask_of_decode h, fun h => ?_⟩
    obtain ⟨hrsv, hop⟩ := hfields 0x3 h
    exact ⟨_, _, _, decode_embed hrsv hop⟩
  · refine ⟨fun ⟨_, _, _, h⟩ => and_rowMask_of_decode h, fun h => ?_⟩
    obtain ⟨hrsv, hop⟩ := hfields 0x4 h
    exact ⟨_, _, _, decode_extract hrsv hop⟩
  · constructor
    · intro h
      obtain ⟨hrsv, rfl⟩ := hfields op h
      exact ⟨_, _, _, eq_descriptor_of_fields hrsv⟩
    · rintro ⟨cnt, len, deg, rfl⟩
      exact descriptor_and_rowMask op deg len cnt

/-! ## Illegal descriptors and unused fields (`30_encoding.md` rules R65, R66) -/

/-- Error entry for an illegal descriptor: the word is `0x0000000004` (R67, R151). -/
theorem raiseError_invalidCommand (s : State) :
    raiseError .invalidCommand s = { s with rsp := 0x0000000004, phase := .resp } := by
  rw [raiseError, respond, show responseWord .invalidCommand false 0 = 0x0000000004 by decide]

/-- Settles O3: the decoder's two refusals are the two cases of R65, and the accept step answers both by the error entry. -/
theorem illegalDescriptorIsAnsweredInvalidCommand : Obligations.IllegalDescriptorIsAnsweredInvalidCommand := by
  refine fun cmd => ⟨decode_error_iff, ?_⟩
  rintro ⟨r, h⟩ s
  rw [acceptStep, h, ← raiseError_invalidCommand]

/-- Settles O4: each listed descriptor is decoded. -/
theorem listedDescriptorsDecodeAsListed : Obligations.ListedDescriptorsDecodeAsListed := by
  refine ⟨?_, ?_, ?_, ?_, ?_, ?_, ?_, ?_⟩ <;> decide

/-- Settles O5: the decoder does not look at an unused field, and looks at `RSV` first. -/
theorem unusedFieldsAreIgnored : Obligations.UnusedFieldsAreIgnored := by
  refine ⟨fun deg len cnt s => ⟨?_, ?_⟩, fun _ _ => ⟨rfl, rfl⟩, fun _ hrsv => ⟨_, decode_reservedBits hrsv⟩⟩
  · rw [acceptStep, decode_descriptor_masks]
  · rw [acceptStep, decode_descriptor_capacity]

/-! ## The assembler's lines (`30_encoding.md` rule R70) -/

theorem check_masks_eq_ok_iff {d : Nat} : (AsmLine.masks d).check = .ok () ↔ d < 16 := by
  simp only [AsmLine.check]
  split_ifs with hd <;> simp [hd]

theorem check_capacity_eq_ok_iff {d len : Nat} : (AsmLine.capacity d len).check = .ok () ↔ d < 16 ∧ len < 2 ^ 32 := by
  simp only [AsmLine.check]
  split_ifs <;> simp <;> omega

theorem check_embed_eq_ok_iff {d len cnt : Nat} :
    (AsmLine.embed d len cnt).check = .ok () ↔ d < 16 ∧ len < 2 ^ 32 ∧ cnt < 2 ^ 32 := by
  simp only [AsmLine.check]
  split_ifs <;> simp <;> omega

/-- An EXTRACT's operands are checked as an EMBED's are (R70). -/
theorem check_extract_eq_ok_iff {d len cnt : Nat} :
    (AsmLine.extract d len cnt).check = .ok () ↔ d < 16 ∧ len < 2 ^ 32 ∧ cnt < 2 ^ 32 :=
  check_embed_eq_ok_iff

/-- A line is encoded exactly when its check passes, and then to its descriptor (R70). -/
theorem assembleLine_eq_ok_iff {l : AsmLine} {w : Cmd} :
    assembleLine l = .ok w ↔ l.check = .ok () ∧ w = descriptorOfLine l := by
  rw [assembleLine]
  cases hcheck : l.check with
  | ok u => simp [eq_comm]
  | error r => simp

/-- Settles O6: the check passes exactly on operands that fit, and the line's descriptor is that of its operands. -/
theorem assemblerEncodesExactlyWhatFits : Obligations.AssemblerEncodesExactlyWhatFits := by
  refine ⟨fun d len cnt w => ⟨?_, ?_, ?_, ?_⟩, by decide⟩
  · rw [assembleLine_eq_ok_iff, check_embed_eq_ok_iff, and_assoc, and_assoc]; rfl
  · rw [assembleLine_eq_ok_iff, check_extract_eq_ok_iff, and_assoc, and_assoc]; rfl
  · rw [assembleLine_eq_ok_iff, check_capacity_eq_ok_iff, and_assoc]; rfl
  · rw [assembleLine_eq_ok_iff, check_masks_eq_ok_iff]; rfl

/-! ## The response is its fields (`30_encoding.md` rule R67) -/

/-- Each bit of a response lies in one of its four fields (R67). -/
theorem rsp_getLsbD (r : Rsp) {i : Nat} (hi : i < 40) :
    r.getLsbD i =
      if i < 4 then (codeField r).getLsbD i else if i < 5 then noneFlag r
      else if i < 8 then (zeroField r).getLsbD (i - 5) else (valueField r).getLsbD (i - 8) := by
  split_ifs with h4 h5 h8
  · simp [codeField, h4]
  · rw [noneFlag, show i = 4 by omega]
  · simp [zeroField, show i - 5 < 3 by omega, show 5 + (i - 5) = i by omega]
  · simp [valueField, show i - 8 < 32 by omega, show 8 + (i - 8) = i by omega]

/-- Two responses with the same fields are the same (R67). -/
theorem rsp_ext {r r' : Rsp} (hcode : codeField r = codeField r') (hnone : noneFlag r = noneFlag r')
    (hzero : zeroField r = zeroField r') (hvalue : valueField r = valueField r') : r = r' := by
  apply BitVec.eq_of_getLsbD_eq
  intro i hi
  rw [rsp_getLsbD r hi, rsp_getLsbD r' hi, hcode, hnone, hzero, hvalue]

/-- Settles O7: `respond` loads `RSP` with the response word, whose fields are known, and a response is its fields. -/
theorem responseFieldsAreWhatRespondWasGiven : Obligations.ResponseFieldsAreWhatRespondWasGiven :=
  ⟨fun code none value _ => ⟨rfl, codeField_responseWord code none value, noneFlag_responseWord code none value,
    zeroField_responseWord code none value, valueField_responseWord code none value⟩, fun _ _ => rsp_ext⟩

end Sys2Proof.Machine

/-! SUPPORT. The statements about the masks (`40_masks.md`): the mask table as formulas, the count of the bits set, and the
command that answers the masks of its degree. -/

namespace Sys2Proof.Machine

/-! ## The mask table (`40_masks.md` rules R80 to R83) -/

/-- A legal degree is at most the width of a byte (R5). -/
theorem bits_le (d : Degree) : d.bits ≤ 8 := by cases d <;> decide

/-- The text mask as a number: `0xFF` moved up by `8 - d` and cut at 8 bits (R80). -/
theorem textMaskOf_toNat (d : Degree) : (textMaskOf d).toNat = (0xFF * 2 ^ (8 - d.bits)) % 256 := by
  cases d <;> decide

/-- The image mask holds all but the low `d` bits of a byte (R81). -/
theorem imgMaskOf_getLsbD (d : Degree) {i : Nat} (hi : i < 8) :
    (imgMaskOf d).getLsbD i = decide (d.bits ≤ i) := by
  revert i; cases d <;> decide

/-- The image mask as a number: `0xFF` with its low `d` bits shifted out and zeros shifted in (R81). -/
theorem imgMaskOf_toNat (d : Degree) : (imgMaskOf d).toNat = (0xFF / 2 ^ d.bits) * 2 ^ d.bits := by
  cases d <;> decide

/-- Settles O8: each mask by its number and by its bits. -/
theorem maskTableFollowsTheFormulas : Obligations.MaskTableFollowsTheFormulas :=
  fun d => ⟨textMaskOf_toNat d, fun _ => textMaskOf_getLsbD d, imgMaskOf_toNat d, fun _ => imgMaskOf_getLsbD d, rfl,
    extMaskOf_toNat d, fun _ => extMaskOf_getLsbD d⟩

/-! ## The properties of the masks (`40_masks.md` rule R84) -/

/-- Of the numbers below `n`, `n - k` are at least `k`. -/
theorem countP_range_le (k n : Nat) : (List.range n).countP (fun j => decide (k ≤ j)) = n - k := by
  induction n with
  | zero => simp
  | succ n ih =>
    rw [List.range_succ, List.countP_append, ih, List.countP_singleton]
    by_cases hk : k ≤ n <;> simp [hk] <;> omega

/-- A byte whose set bits are those from `k` up has `8 - k` of them. -/
theorem countP_getLsbD_of_high_bits {m : Byte} {k : Nat} (hm : ∀ j, j < 8 → m.getLsbD j = decide (k ≤ j)) :
    (List.range 8).countP (fun j => m.getLsbD j) = 8 - k := by
  rw [← countP_range_le]
  exact List.countP_congr fun j hj => by rw [hm j (List.mem_range.1 hj)]

/-- The image and extraction masks cover a byte (R84). -/
theorem imgMaskOf_or_extMaskOf (d : Degree) : imgMaskOf d ||| extMaskOf d = 0xFF := by
  rw [extMaskOf, BitVec.or_not_self]; rfl

/-- The image and extraction masks share no bit (R84). -/
theorem imgMaskOf_and_extMaskOf (d : Degree) : imgMaskOf d &&& extMaskOf d = 0x00 := by
  rw [extMaskOf, BitVec.and_not_self]

/-- The text mask moved down to bit 0 is the extraction mask (R84). -/
theorem textMaskOf_shifted (d : Degree) : textMaskOf d >>> d.shamt = extMaskOf d := by
  have hbits := bits_le d
  apply BitVec.eq_of_getLsbD_eq
  intro j hj
  rw [BitVec.getLsbD_ushiftRight, extMaskOf_getLsbD d hj, Degree.shamt]
  by_cases hjd : j < d.bits
  · rw [textMaskOf_getLsbD d (by omega)]; simp [hjd]
  · rw [BitVec.getLsbD_of_ge _ _ (by omega)]; simp [hjd]

/-- Settles O9: (a) and (b) from the bits of the two masks, (c) and (d) from the complement, (e) degree by degree. -/
theorem masksHaveTheStatedProperties : Obligations.MasksHaveTheStatedProperties := by
  refine ⟨fun d => ⟨⟨?_, fun j hj => ?_⟩, ⟨?_, fun j hj => ?_⟩, imgMaskOf_or_extMaskOf d, imgMaskOf_and_extMaskOf d,
    textMaskOf_shifted d⟩, by decide⟩
  · rw [countP_getLsbD_of_high_bits fun _ => textMaskOf_getLsbD d, Nat.sub_sub_self (bits_le d)]
  · rw [textMaskOf_getLsbD d (by omega), decide_eq_false (by omega)]
  · exact countP_getLsbD_of_high_bits fun _ => imgMaskOf_getLsbD d
  · rw [imgMaskOf_getLsbD d (hj.trans_le (bits_le d)), decide_eq_false (by omega)]

/-! ## MASKS (`40_masks.md` rules R85, R86) -/

/-- Only the fields 1, 2, 4 and 8 hold a legal degree (R63). -/
theorem ofField_eq_none {deg : DegField} (h1 : deg ≠ 1) (h2 : deg ≠ 2) (h4 : deg ≠ 4) (h8 : deg ≠ 8) :
    Degree.ofField deg = none := by
  cases hdeg : Degree.ofField deg with
  | none => rfl
  | some d =>
    have hfield := field_of_ofField hdeg
    cases d <;> contradiction

/-- Error entry for an illegal degree: the word is `0x0000000001` (R67, R152). -/
theorem raiseError_invalidDegree (s : State) :
    raiseError .invalidDegree s = { s with rsp := 0x0000000001, phase := .resp } := by
  rw [raiseError, respond, show responseWord .invalidDegree false 0 = 0x0000000001 by decide]

/-- A response of success without `NONE` is its value over a zero byte (R67). -/
theorem responseWord_ok (value : BitVec 32) : responseWord .ok false value = value ++ 0x00#8 := by
  apply BitVec.eq_of_getLsbD_eq
  intro i hi
  rw [responseWord_getLsbD, BitVec.getLsbD_append]
  split_ifs <;> simp [Code.number] <;> omega

theorem exec_masks_of_legal (d : Degree) (s : State) :
    exec (.masks d.field) s = .next (respond .ok false (masksValue d) s) := by
  simp only [exec, execMasks, ofField_field]

theorem exec_masks_of_illegal {deg : DegField} (s : State) (hdeg : Degree.ofField deg = none) :
    exec (.masks deg) s = .next (raiseError .invalidDegree s) := by
  simp only [exec, execMasks, hdeg]

/-- Settles O10: a legal degree is answered its masks as the response of success, any other by the error entry. -/
theorem masksAnswersTheMasksOfTheDegree : Obligations.MasksAnswersTheMasksOfTheDegree := by
  refine fun s => ⟨fun d => ?_, fun deg h1 h2 h4 h8 => ?_⟩
  · rw [exec_masks_of_legal, respond, responseWord_ok, masksValue]
  · rw [exec_masks_of_illegal s (ofField_eq_none h1 h2 h4 h8), raiseError_invalidDegree]

end Sys2Proof.Machine

/-! SUPPORT. The statements about the capacity (`41_capacity.md`): the bound over the rationals and at 36 bits, the counts it
admits, and the command that answers the largest of them. -/

namespace Sys2Proof.Machine

/-! ## The check as an inequality (`41_capacity.md` rules R90 to R92) -/

/-- The integer inequality is the rational one with both sides multiplied by 8 (R90, R91). -/
theorem bound_iff_rational (p x : ℕ) : 8 * (p + 54) < x ↔ (p : ℚ) < (x : ℚ) / 8 - 54 :=
  calc 8 * (p + 54) < x
    _ ↔ 8 * ((p : ℚ) + 54) < (x : ℚ) := by exact_mod_cast Iff.rfl
    _ ↔ ((p : ℚ) + 54) * 8 < (x : ℚ) := by rw [mul_comm]
    _ ↔ (p : ℚ) < (x : ℚ) / 8 - 54 := by rw [lt_sub_iff_add_lt, lt_div_iff₀ (by norm_num)]

/-- Settles O12: the check is the integer inequality, which is the rational one. -/
theorem capacityCheckIsTheExactInequality : Obligations.CapacityCheckIsTheExactInequality := by
  refine ⟨fun d len cnt => ⟨admissible_iff, ?_⟩, by decide⟩
  rw [admissible_iff, bound_iff_rational, Nat.cast_mul]

/-- `L * d` is below `2^35` (R92). -/
theorem length_mul_bits_lt (d : Degree) (len : Len) : len.toNat * d.bits < 2 ^ 35 :=
  calc len.toNat * d.bits ≤ len.toNat * 8 := Nat.mul_le_mul_left _ (bits_le d)
    _ < 2 ^ 35 := by have := len.isLt; omega

/-- `8 * (P + 54)` is below `2^36` (R92). -/
theorem eight_mul_count_lt (cnt : Len) : 8 * (cnt.toNat + 54) < 2 ^ 36 := by
  have := cnt.isLt
  omega

/-- Settles O13: both sides hold their numbers, and the comparison of the words is that of the numbers. -/
theorem capacityComparisonDoesNotWrap : Obligations.CapacityComparisonDoesNotWrap :=
  fun d len cnt => ⟨BitVec.ult_iff_lt, rfl, rfl, scaledLength_toNat d len, length_mul_bits_lt d len, scaledCount_toNat cnt,
    eight_mul_count_lt cnt⟩

/-! ## The admissible counts (`41_capacity.md` rule R93) -/

/-- No count is admissible when `L * d <= 432` (R93). -/
theorem admissible_eq_false_of_no_room {d : Degree} {len : Len} (h : len.toNat * d.bits ≤ 432) (cnt : Len) :
    admissible d len cnt = false := by
  rw [← Bool.not_eq_true, admissible_iff]
  omega

/-- Where there is room, taking the header off the largest count does not cut at 0 (R93). -/
theorem header_le_of_room {x : ℕ} (h : 432 < x) : 54 ≤ (x - 1) / 8 := by omega

/-- The largest admissible count is below `2^32` (R93). -/
theorem maxCount_lt (d : Degree) (len : Len) : (len.toNat * d.bits - 1) / 8 - 54 < 2 ^ 32 := by
  have := length_mul_bits_lt d len
  omega

/-- Where there is room, the admissible counts are those up to `((L * d - 1) div 8) - 54` (R93). -/
theorem admissible_iff_le_maxCount {d : Degree} {len cnt : Len} (h : 432 < len.toNat * d.bits) :
    admissible d len cnt = true ↔ cnt.toNat ≤ (len.toNat * d.bits - 1) / 8 - 54 := by
  rw [admissible_iff]
  omega

/-- Some count is admissible exactly where there is room: the empty payload is the first to fit (R93). -/
theorem exists_admissible_iff {d : Degree} {len : Len} : (∃ cnt, admissible d len cnt = true) ↔ 432 < len.toNat * d.bits := by
  constructor
  · rintro ⟨cnt, hadm⟩
    have := admissible_iff.mp hadm
    omega
  · exact fun h => ⟨0, admissible_iff.mpr (by simpa using h)⟩

/-- From 433 to 440 only the empty payload is admissible (R93, R96). -/
theorem admissible_iff_eq_zero {d : Degree} {len cnt : Len} (hroom : 432 < len.toNat * d.bits) (h : len.toNat * d.bits ≤ 440) :
    admissible d len cnt = true ↔ cnt = 0 := by
  have hzero : (0 : Len).toNat = 0 := rfl
  rw [admissible_iff, BitVec.toNat_eq, hzero]
  omega

/-- Settles O14: the largest count for every length, then the least lengths with room, degree by degree. -/
theorem admissibleCountsEndAtTheCapacity : Obligations.AdmissibleCountsEndAtTheCapacity := by
  refine ⟨fun d len => ⟨admissible_eq_false_of_no_room, fun hroom =>
    ⟨fun cnt => admissible_iff_le_maxCount hroom, header_le_of_room hroom, maxCount_lt d len⟩⟩, fun len => ?_, fun cnt => ?_⟩
  · simp only [exists_admissible_iff, Degree.bits]
    omega
  · exact ⟨admissible_iff_eq_zero (by decide) (by decide), admissible_iff_eq_zero (by decide) (by decide),
      admissible_iff_eq_zero (by decide) (by decide), admissible_iff_eq_zero (by decide) (by decide)⟩

/-! ## The carriers of an admissible count (`41_capacity.md` rule R94) -/

/-- The carrier count of an admissible count is the number of its carrier bytes, not cut at 32 bits (R94). -/
theorem carrierCount_toNat {d : Degree} {len cnt : Len} (h : admissible d len cnt = true) :
    (carrierCount d cnt).toNat = cnt.toNat * d.steps := by
  have hin := carriers_lt_len h
  have hlen := len.isLt
  have hsteps := steps_le d
  rw [carrierCount, BitVec.toNat_mul, BitVec.toNat_ofNat, Nat.mod_eq_of_lt (show d.steps < 2 ^ 32 by omega),
    Nat.mod_eq_of_lt (by omega)]

/-- Settles O15: the end of the carriers lies before the end of the image, and the other three follow. -/
theorem admissibleCountStaysInsideTheImage : Obligations.AdmissibleCountStaysInsideTheImage := by
  intro d len cnt hadm
  have hin : 54 + cnt.toNat * d.steps < len.toNat := carriers_lt_len hadm
  refine ⟨hin, by omega, fun k c hk hc => ?_, carrierCount_toNat hadm⟩
  have hcarrier := mul_steps_add_lt hk hc
  omega

/-! ## CAPACITY (`41_capacity.md` rules R95, R96) -/

/-- The comparison with 432 at 36 bits is that of the numbers (R92, R95). -/
theorem scaledLength_le_noRoom_iff {d : Degree} {len : Len} : scaledLength d len ≤ noRoom ↔ len.toNat * d.bits ≤ 432 := by
  rw [BitVec.le_def, scaledLength_toNat]
  rfl

theorem capacityOf_of_no_room {d : Degree} {len : Len} (h : len.toNat * d.bits ≤ 432) : capacityOf d len = none :=
  if_pos (scaledLength_le_noRoom_iff.mpr h)

/-- The arithmetic of the answer at 36 bits is that of R93, and the answer fits 32 bits (R93, R95). -/
theorem capacityOf_of_room {d : Degree} {len : Len} (h : 432 < len.toNat * d.bits) :
    capacityOf d len = some (BitVec.ofNat 32 ((len.toNat * d.bits - 1) / 8 - 54)) := by
  rw [capacityOf, if_neg (by rw [scaledLength_le_noRoom_iff]; omega), Option.some.injEq]
  apply BitVec.eq_of_toNat_eq
  have hone : (1 : BitVec 36).toNat = 1 := rfl
  have hpos : 1 ≤ scaledLength d len := by rw [BitVec.le_def, scaledLength_toNat, hone]; omega
  have hpred : (scaledLength d len - 1).toNat = len.toNat * d.bits - 1 := by
    rw [BitVec.toNat_sub_of_le hpos, scaledLength_toNat, hone]
  rw [BitVec.toNat_setWidth, BitVec.toNat_ofNat, BitVec.toNat_sub_of_le]
  · rw [BitVec.toNat_udiv, hpred]; rfl
  · rw [BitVec.le_def, BitVec.toNat_udiv, hpred]; exact header_le_of_room h

/-- The answer where no count is admissible: `NONE = 1`, `VALUE = 0` (R96). -/
theorem exec_capacity_of_no_room {d : Degree} {len : Len} (s : State) (h : len.toNat * d.bits ≤ 432) :
    exec (.capacity d.field len) s = .next (respond .ok true 0 s) := by
  simp only [exec, execCapacity, ofField_field, capacityOf_of_no_room h]

/-- The answer where some count is admissible: the largest (R95). -/
theorem exec_capacity_of_room {d : Degree} {len : Len} (s : State) (h : 432 < len.toNat * d.bits) :
    exec (.capacity d.field len) s =
      .next (respond .ok false (BitVec.ofNat 32 ((len.toNat * d.bits - 1) / 8 - 54)) s) := by
  simp only [exec, execCapacity, ofField_field, capacityOf_of_room h]

/-- Settles O16: the two answers of CAPACITY, and the largest count 0 where `L * d` is at most 440. -/
theorem capacityAnswersTheLargestCountOrNone : Obligations.CapacityAnswersTheLargestCountOrNone := by
  refine fun s d len => ⟨fun h => ?_, fun h => ?_, fun hroom h => ⟨?_, (admissible_iff_eq_zero hroom h).mpr rfl⟩⟩
  · rw [exec_capacity_of_no_room s h, respond, show responseWord .ok true 0 = 0x0000000010 by decide]
  · rw [exec_capacity_of_room s h, respond, responseWord_ok]
  · rw [exec_capacity_of_room s hroom, show (len.toNat * d.bits - 1) / 8 - 54 = 0 by omega, respond,
      show responseWord .ok false (BitVec.ofNat 32 0) = 0 by decide]

/-! ## CAPACITY and the transforms (`41_capacity.md` rule R95) -/

/-- A count is admissible exactly when CAPACITY answers that there is a largest and the count is no larger (R95). -/
theorem admissible_iff_capacity_answer {s t : State} {d : Degree} {len cnt : Len}
    (h : exec (.capacity d.field len) s = .next t) :
    admissible d len cnt = true ↔ noneFlag t.rsp = false ∧ cnt ≤ valueField t.rsp := by
  by_cases hroom : 432 < len.toNat * d.bits
  · rw [exec_capacity_of_room s hroom] at h
    cases h
    rw [respond_rsp, noneFlag_responseWord, valueField_responseWord, BitVec.le_def, BitVec.toNat_ofNat,
      Nat.mod_eq_of_lt (maxCount_lt d len), admissible_iff_le_maxCount hroom]
    simp
  · rw [exec_capacity_of_no_room s (by omega)] at h
    cases h
    simp [admissible_eq_false_of_no_room (by omega : len.toNat * d.bits ≤ 432) cnt]

/-- EMBED refuses a count that is not admissible (R101, R153). -/
theorem exec_embed_of_not_admissible {d : Degree} {len cnt : Len} (s : State) (h : ¬ admissible d len cnt = true) :
    exec (.embed d.field len cnt) s = .next (raiseError .payloadTooLarge s) := by
  simp only [exec, execEmbed, ofField_field, if_neg h]

/-- EXTRACT refuses a count that is not admissible (R121, R154). -/
theorem exec_extract_of_not_admissible {d : Degree} {len cnt : Len} (s : State) (h : ¬ admissible d len cnt = true) :
    exec (.extract d.field len cnt) s = .next (raiseError .readTooLarge s) := by
  simp only [exec, execExtract, ofField_field, if_neg h]

/-- EMBED at a legal degree starts a run exactly with an admissible count (R101, R102). -/
theorem embed_runs_iff {s u : State} {d : Degree} {len cnt : Len} (h : exec (.embed d.field len cnt) s = .next u) :
    u.phase = .run ↔ admissible d len cnt = true := by
  by_cases hadm : admissible d len cnt = true
  · rw [exec_embed_of_admissible s hadm] at h
    cases h
    simp [hadm]
  · rw [exec_embed_of_not_admissible s hadm] at h
    cases h
    simp [hadm]

/-- EXTRACT at a legal degree starts a run exactly with an admissible count (R121, R122). -/
theorem extract_runs_iff {s v : State} {d : Degree} {len cnt : Len} (h : exec (.extract d.field len cnt) s = .next v) :
    v.phase = .run ↔ admissible d len cnt = true := by
  by_cases hadm : admissible d len cnt = true
  · rw [exec_extract_of_admissible s hadm] at h
    cases h
    simp [hadm]
  · rw [exec_extract_of_not_admissible s hadm] at h
    cases h
    simp [hadm]

/-- Settles O17: the transforms run exactly with an admissible count, which CAPACITY's answer tells. -/
theorem capacityAgreesWithTheTransforms : Obligations.CapacityAgreesWithTheTransforms :=
  fun _ _ _ _ _ _ _ hcap hemb hext =>
    ⟨(embed_runs_iff hemb).trans (admissible_iff_capacity_answer hcap),
      (extract_runs_iff hext).trans (admissible_iff_capacity_answer hcap)⟩

end Sys2Proof.Machine

/-! SUPPORT. The statements about EMBED (`42_embed.md`): the accept step with its checks, each run step whole, and the run as an
invariant over the addresses of the image, from which the properties of the result follow. -/

namespace Sys2Proof.Machine

/-! ## The accept step of EMBED (`42_embed.md` rules R101, R102) -/

/-- Error entry for a count that is not admissible: the word is `0x0000000002` (R67, R153). -/
theorem raiseError_payloadTooLarge (s : State) :
    raiseError .payloadTooLarge s = { s with rsp := 0x0000000002, phase := .resp } := by
  rw [raiseError, respond, show responseWord .payloadTooLarge false 0 = 0x0000000002 by decide]

/-- An illegal degree is refused before the count is looked at (R101, R152). -/
theorem exec_embed_of_illegal {deg : DegField} (len cnt : Len) (s : State) (hdeg : Degree.ofField deg = none) :
    exec (.embed deg len cnt) s = .next (raiseError .invalidDegree s) := by
  simp only [exec, execEmbed, hdeg]

/-- Below 55 bytes no degree has room for any count (R94, R101). -/
theorem length_mul_bits_le_of_short (d : Degree) {len : Len} (h : len.toNat < 55) : len.toNat * d.bits ≤ 432 :=
  calc len.toNat * d.bits ≤ 54 * 8 := Nat.mul_le_mul (by omega) (bits_le d)
    _ = 432 := rfl

/-- Settles O18: the integer inequality is the check of the accept step. -/
theorem embedStartsTheRun : Obligations.EmbedStartsTheRun :=
  fun s _ _ _ h => ⟨true, exec_embed_of_admissible s (admissible_iff.mpr h)⟩

/-- Settles O19: the degree check, then the capacity check, which a short image always fails. -/
theorem embedChecksDegreeThenCapacity : Obligations.EmbedChecksDegreeThenCapacity := by
  refine fun s len cnt => ⟨fun deg h1 h2 h4 h8 => ?_, fun d h => ?_, fun d h => ?_⟩
  · rw [exec_embed_of_illegal len cnt s (ofField_eq_none h1 h2 h4 h8), raiseError_invalidDegree]
  · rw [exec_embed_of_not_admissible s (admissible_iff.not.mpr h), raiseError_payloadTooLarge]
  · have hfull := admissible_eq_false_of_no_room (length_mul_bits_le_of_short d h) cnt
    rw [exec_embed_of_not_admissible s (by simp [hfull]), raiseError_payloadTooLarge]

/-! ## The run steps, whole (`42_embed.md` rules R103 to R106) -/

/-- The step of a running EMBED is its run step (R138). -/
theorem step_of_running_embed {s : State} {rest : List HostMove} {d : Degree} (h : Running s rest d) (hop : s.op = 0x3) :
    step s = outcomeOf (embedRunStep d (s.begin rest)) := by
  obtain ⟨hedge, hrst, hphase, hdeg, hchunk, hsidx, hcur⟩ := h
  rw [step_of_edgeNext hedge, clockEdge_run (s := s.begin rest) hrst hphase,
    runStep_embed (s := s.begin rest) hdeg hchunk hsidx hcur hop]

/-- The step of a running EXTRACT is its run step (R138). -/
theorem step_of_running_extract {s : State} {rest : List HostMove} {d : Degree} (h : Running s rest d) (hop : s.op = 0x4) :
    step s = outcomeOf (extractRunStep d (s.begin rest)) := by
  obtain ⟨hedge, hrst, hphase, hdeg, hchunk, hsidx, hcur⟩ := h
  rw [step_of_edgeNext hedge, clockEdge_run (s := s.begin rest) hrst hphase,
    runStep_extract (s := s.begin rest) hdeg hchunk hsidx hcur hop]

/-- Beginning a step changes no space. -/
@[simp] theorem space_begin (s : State) (rest : List HostMove) (sp : Space) : (s.begin rest).space sp = s.space sp := by
  cases sp <;> rfl

/-- A read draws the same byte after the step has begun. -/
@[simp] theorem draw_begin_byte (s : State) (rest : List HostMove) (sp : Space) (a : Addr) :
    ((s.begin rest).draw sp a).1 = (s.draw sp a).1 :=
  (draw_congr a (space_begin s rest sp) rfl).1

/-- A read counts the same draws after the step has begun. -/
@[simp] theorem draw_begin_draws (s : State) (rest : List HostMove) (sp : Space) (a : Addr) :
    ((s.begin rest).draw sp a).2.draws = (s.draw sp a).2.draws :=
  (draw_congr a (space_begin s rest sp) rfl).2

/-- `t` has the bytes of `s` but for the byte `w` stored in `OUT` at address `a` (R47). -/
structure StoresInOut (s t : State) (a : Nat) (w : Byte) : Prop where
  img : t.img = s.img
  sym : t.sym = s.sym
  out : t.out = Memory.write s.out a w

/-- Space by space, `t` is `s` with `OUT` replaced. -/
theorem StoresInOut.space_eq {s t : State} {a : Nat} {w : Byte} (h : StoresInOut s t a w) (sp : Space) :
    t.space sp = (s.setSpace .out (Memory.write (s.space .out) a w)).space sp := by
  cases sp
  · exact h.img
  · exact h.sym
  · exact h.out

/-- The byte stored is the byte found (R47). -/
theorem StoresInOut.byteAt_same {s t : State} {a : Nat} {w : Byte} (h : StoresInOut s t a w) : t.byteAt .out a = some w := by
  rw [byteAt_congr (h.space_eq .out), byteAt_setSpace_write_same]

/-- Every other byte of every space is found as before (R47). -/
theorem StoresInOut.byteAt_other {s t : State} {a : Nat} {w : Byte} (h : StoresInOut s t a w) (sp : Space) (i : Nat)
    (hne : sp ≠ .out ∨ i ≠ a) : t.byteAt sp i = s.byteAt sp i := by
  rw [byteAt_congr (h.space_eq sp), byteAt_setSpace_write_other w s hne]

/-- A header or tail step of EMBED is a byte copy (R103, R105). -/
theorem embedRunStep_copy {d : Degree} {s : State}
    (h : s.cur.toNat < 54 ∨ (54 ≤ s.cur.toNat ∧ s.sidx = s.cnt ∧ s.cur < s.len)) : embedRunStep d s = copyByte s := by
  obtain hheader | ⟨hbeyond, hend, hmore⟩ := h
  · exact embedRunStep_header hheader
  · exact embedRunStep_tail hbeyond hend hmore

/-- Settles O20: the step is the byte copy, which stores the byte it draws. -/
theorem embedCopyStepCopiesOneByte : Obligations.EmbedCopyStepCopiesOneByte := by
  intro s rest d hrunning hop hplace himg hout
  have hstep : step s = outcomeOf (copyByte (s.begin rest)) := by
    rw [step_of_running_embed hrunning hop, embedRunStep_copy (s := s.begin rest) hplace]
  rw [copyByte_ok (s := s.begin rest) himg hout, begin_cur, draw_begin_byte, draw_begin_draws] at hstep
  refine ⟨_, hstep, rfl, fun v hv => ?_, StoresInOut.byteAt_other (w := (s.draw .img s.cur).1) ⟨rfl, rfl, rfl⟩⟩
  rw [draw_of_written hv]
  exact StoresInOut.byteAt_same (s := s) ⟨rfl, rfl, rfl⟩

/-- The symbol of a body step, fetched where there is storage: its read shows on the bus with the first chunk alone (R104). -/
theorem embedSymbol_begin {s s1 : State} {sv : Byte} (rest : List HostMove)
    (hstorage : s.chunk = 0 → s.inExtent .sym s.sidx = true)
    (h : (sv, s1) = if s.chunk = 0 then s.draw .sym s.sidx else (s.shr, s)) :
    embedSymbol (s.begin rest) = .ok (sv, { s.begin rest with
      draws := s1.draws
      bus := if s.chunk = 0 then [⟨.sym, .read, s.sidx, sv⟩] else [] }) ∧ s1.img = s.img := by
  by_cases hfirst : s.chunk = 0
  · rw [if_pos hfirst] at h
    rw [embedSymbol, if_pos (by exact hfirst), begin_sidx, memRead_ok (by exact hstorage hfirst), draw_begin_byte,
      draw_begin_draws, ← h, if_pos hfirst]
    refine ⟨rfl, ?_⟩
    have hs1 : s1 = _ := (congrArg Prod.snd h).trans (draw_state s .sym s.sidx)
    rw [hs1]
  · rw [if_neg hfirst] at h
    cases h
    rw [embedSymbol, if_neg (by exact hfirst), if_neg hfirst]
    exact ⟨rfl, rfl⟩

/-- Settles O21: the symbol, the pixel byte, the byte stored, and then the chunk moves on within the symbol or past it. -/
theorem embedBodyStepEmbedsOneChunk : Obligations.EmbedBodyStepEmbedsOneChunk := by
  intro s s1 rest d sv px w hrunning hop hbeyond hmore hsym himg hout hsv hpx hw
  obtain ⟨hfetch, himg1⟩ := embedSymbol_begin rest hsym hsv
  obtain ⟨hdraw, hdraws⟩ := draw_congr (sp := .img) (s := s1) (t := { s.begin rest with
    draws := s1.draws, bus := if s.chunk = 0 then [⟨.sym, .read, s.sidx, sv⟩] else [] }) s.cur himg1.symm rfl
  have hstep : step s = outcomeOf (embedBodyStep d (s.begin rest)) := by
    rw [step_of_running_embed hrunning hop, embedRunStep_body (by exact hbeyond) (by exact hmore)]
  rw [embedBodyStep_ok hfetch (by exact himg) (by exact hout), begin_cur, hdraw, hdraws, ← hpx, begin_imgMask, begin_textMask,
    Degree.shamt, ← hw] at hstep
  refine ⟨_, hstep, ?_, StoresInOut.byteAt_same (s := s) ⟨by simp, by simp, by simp⟩,
    StoresInOut.byteAt_other (w := w) ⟨by simp, by simp, by simp⟩⟩
  obtain ⟨hlast, ht⟩ | ⟨hwithin, ht⟩ := advanceChunk_cases d _ <;> rw [ht]
  · simp [show s.chunk.toNat + 1 = d.steps from hlast]
  · simp [show s.chunk.toNat + 1 ≠ d.steps from hwithin]

/-- What completion answers, in the word's own bits (R106, R124). -/
theorem completeRun_begin (d : Degree) (s : State) (rest : List HostMove) :
    completeRun d (s.begin rest) =
      { s.begin rest with rsp := (s.cnt * BitVec.ofNat 32 d.steps) ++ 0x00#8, phase := .resp } := by
  rw [completeRun_eq_respond, respond, responseWord_ok, carrierCount]
  rfl

/-- Settles O23, for each of the two transforms. -/
theorem completionStepAnswersTheCarrierCount : Obligations.CompletionStepAnswersTheCarrierCount := by
  intro s rest d hrunning hend hplace
  rw [← completeRun_begin]
  obtain ⟨hop, hbeyond, hcur⟩ | hop := hplace
  · rw [step_of_running_embed hrunning hop,
      embedRunStep_completion (by exact hbeyond) (by exact hend) (by exact hcur), outcomeOf]
  · rw [step_of_running_extract hrunning hop, extractRunStep_completion (by exact hend), outcomeOf]

/-! ## The closed form, address by address (`42_embed.md` rule R107) -/

/-- An address of the image that is no carrier byte takes the byte of `IMG`. -/
theorem embedResult_copy {s : State} {d : Degree} {len cnt : Len} {i : Nat} (hi : i < len.toNat)
    (h : isCarrier d cnt.toNat i = false) : embedResult s d len cnt i = s.byteAt .img i := by
  simp [embedResult, hi, h]

/-- A carrier byte takes a chunk of the symbol it belongs to. -/
theorem embedResult_carrier {s : State} {d : Degree} {len cnt : Len} {i : Nat} {px v : Byte} (hi : i < len.toNat)
    (h : isCarrier d cnt.toNat i = true) (hpx : s.byteAt .img i = some px) (hv : s.byteAt .sym (symbolOf d i) = some v) :
    embedResult s d len cnt i = some (carry d px v (chunkOf d i)) := by
  simp [embedResult, hi, h, hpx, hv]

/-- Above the image `OUT` keeps what it held. -/
theorem embedResult_beyond {s : State} {d : Degree} {len cnt : Len} {i : Nat} (hi : ¬ i < len.toNat) :
    embedResult s d len cnt i = s.byteAt .out i := if_neg hi

/-- A carrier byte of `n` symbols belongs to one of them (R44). -/
theorem symbolOf_lt {d : Degree} {n i : Nat} (h : isCarrier d n i = true) : symbolOf d i < n := by
  simp only [isCarrier, Bool.and_eq_true, decide_eq_true_eq] at h
  rw [symbolOf, Nat.div_lt_iff_lt_mul (steps_pos d)]
  omega

/-- The closed form at an address of the image depends on its pixel byte and on the symbols alone (R107, R111). -/
theorem embedResult_congr {s s' : State} {d : Degree} {len cnt : Len} {i : Nat} (hi : i < len.toNat)
    (himg : s'.byteAt .img i = s.byteAt .img i) (hsym : ∀ k, k < cnt.toNat → s'.byteAt .sym k = s.byteAt .sym k) :
    embedResult s' d len cnt i = embedResult s d len cnt i := by
  cases hcarrier : isCarrier d cnt.toNat i with
  | false => rw [embedResult_copy hi hcarrier, embedResult_copy hi hcarrier, himg]
  | true => simp only [embedResult, if_pos hi, himg, hsym _ (symbolOf_lt hcarrier)]

/-! ## The byte a run step of EMBED stores (`42_embed.md` rules R103 to R105) -/

/-- After the first chunk `SHR` holds the symbol in progress, shifted left by the chunks done (R15, R104). -/
def ShrHoldsSymbol (d : Degree) (s : State) : Prop :=
  s.chunk ≠ 0 → ∀ v, s.byteAt .sym s.sidx.toNat = some v → s.shr = v <<< (d.bits * s.chunk.toNat)

/-- Before the first chunk of a symbol nothing is asked of `SHR`. -/
theorem shrHoldsSymbol_of_chunk_zero {d : Degree} {s : State} (h : s.chunk = 0) : ShrHoldsSymbol d s :=
  fun hne => absurd h hne

/-- A copy step stores the pixel byte (R103, R105). -/
theorem copyByte_stores {s t : State} {px : Byte} (hpx : s.byteAt .img s.cur.toNat = some px) (h : copyByte s = .ok t) :
    StoresInOut s t s.cur.toNat px := by
  obtain ⟨-, -, rfl⟩ := copyByte_cases h
  rw [draw_of_written hpx]
  exact ⟨rfl, rfl, rfl⟩

/-- The symbol a body step works on, from `SYM` or from `SHR`, is the symbol shifted left by the chunks done (R104). -/
theorem embedSymbol_of_written {d : Degree} {s s1 : State} {sv v : Byte} (h : embedSymbol s = .ok (sv, s1))
    (hv : s.byteAt .sym s.sidx.toNat = some v) (hshr : ShrHoldsSymbol d s) : sv = v <<< (d.bits * s.chunk.toNat) := by
  obtain ⟨hfirst, -, hr⟩ | ⟨hlater, hr⟩ := embedSymbol_cases h
  · rw [draw_of_written hv] at hr
    cases hr
    simp [hfirst]
  · cases hr
    exact hshr hlater v hv

/-- A body step stores the pixel byte with the chunk in its low bits, and keeps the rest of the symbol in `SHR` (R104). -/
theorem embedBodyStep_stores {d : Degree} {s t : State} {px v : Byte} (htext : s.textMask = textMaskOf d)
    (hmask : s.imgMask = imgMaskOf d) (hchunk : s.chunk.toNat < d.steps) (hpx : s.byteAt .img s.cur.toNat = some px)
    (hv : s.byteAt .sym s.sidx.toNat = some v) (hshr : ShrHoldsSymbol d s) (h : embedBodyStep d s = .ok t) :
    StoresInOut s t s.cur.toNat (carry d px v s.chunk.toNat) ∧ t.shr = v <<< (d.bits * (s.chunk.toNat + 1)) := by
  obtain ⟨sv, s1, hfetch, -, -, rfl⟩ := embedBodyStep_cases h
  obtain rfl := embedSymbol_of_written hfetch hv hshr
  obtain ⟨draws, bus, rfl⟩ := embedSymbol_state hfetch
  rw [draw_of_written ((byteAt_draws_bus s draws bus .img _).trans hpx), htext, hmask, shifted_top_bits_eq_chunkBits v hchunk]
  refine ⟨⟨by simp, by simp, by simp [carry]⟩, ?_⟩
  rw [advanceChunk_shr, ← BitVec.shiftLeft_add, Nat.mul_add_one]

/-- A body step leaves `SHR` ready for the next chunk of the symbol (R15, R104). -/
theorem shrHoldsSymbol_after_body {d : Degree} {s t : State} {v w : Byte} {a : Nat}
    (hchunk : s.chunk.toNat < d.steps) (hv : s.byteAt .sym s.sidx.toNat = some v) (hstores : StoresInOut s t a w)
    (hnext : MovesToNextChunk d s t) (hshr : t.shr = v <<< (d.bits * (s.chunk.toNat + 1))) : ShrHoldsSymbol d t := by
  obtain ⟨-, hc, -⟩ | ⟨hwithin, hc, hs⟩ := hnext
  · exact shrHoldsSymbol_of_chunk_zero hc
  · intro _ v' hv'
    rw [hs, hstores.byteAt_other .sym _ (.inl nofun), hv, Option.some.injEq] at hv'
    have hfits : s.chunk.toNat + 1 < 8 := (lt_of_le_of_ne hchunk hwithin).trans_le (steps_le d)
    have hc' : t.chunk.toNat = s.chunk.toNat + 1 := by rw [hc]; bv_omega
    rw [hshr, hv', hc']

/-- `t` is `s` after a run step that stored the byte the closed form asks for at the cursor, `SHR` in order (R107). -/
def EmbedsItsByte (d : Degree) (s t : State) : Prop :=
  ∃ w, embedResult s d s.len s.cnt s.cur.toNat = some w ∧ StoresInOut s t s.cur.toNat w ∧ ShrHoldsSymbol d t

/-- A copy step before the first symbol or after the last embeds its byte (R103, R105). -/
theorem copyByte_embedsItsByte {d : Degree} {s t : State} {px : Byte} (hcur : s.cur < s.len) (hchunk : s.chunk = 0)
    (hcarrier : isCarrier d s.cnt.toNat s.cur.toNat = false) (hpx : s.byteAt .img s.cur.toNat = some px)
    (h : copyByte s = .ok t) : EmbedsItsByte d s t := by
  obtain ⟨-, -, hc⟩ := copyByte_handlesOneByte h
  exact ⟨px, (embedResult_copy hcur hcarrier).trans hpx, copyByte_stores hpx h, shrHoldsSymbol_of_chunk_zero (hc.trans hchunk)⟩

/-- A body step embeds its byte: the place of the cursor tells the symbol and the chunk (R44, R104). -/
theorem embedBodyStep_embedsItsByte {d : Degree} {s t : State} {px v : Byte} (htext : s.textMask = textMaskOf d)
    (hmask : s.imgMask = imgMaskOf d) (hcur : s.cur < s.len) (hmore : s.sidx < s.cnt) (hpos : ExtractPosition d s)
    (hpx : s.byteAt .img s.cur.toNat = some px) (hv : s.byteAt .sym s.sidx.toNat = some v) (hshr : ShrHoldsSymbol d s)
    (h : embedBodyStep d s = .ok t) : EmbedsItsByte d s t := by
  obtain ⟨-, hchunk, -, hplace⟩ := hpos
  obtain ⟨hstores, hrest⟩ := embedBodyStep_stores htext hmask hchunk hpx hv hshr h
  refine ⟨_, ?_, hstores, shrHoldsSymbol_after_body hchunk hv hstores (embedBodyStep_handlesOneByte h).2 hrest⟩
  rw [embedResult_carrier hcur (isCarrier_carrier hmore hchunk hplace) hpx (by rwa [symbolOf_carrier hchunk hplace]),
    chunkOf_carrier hchunk hplace]

/-- The masks of a run are those of the degree in flight (R17). -/
theorem runInv_masks {d : Degree} {s : State} (hinv : RunInv s) (hdeg : Degree.ofField s.deg = some d) :
    s.textMask = textMaskOf d ∧ s.imgMask = imgMaskOf d := by
  obtain ⟨d', hdeg', htext, hmask, -⟩ := hinv
  obtain rfl : d' = d := Option.some.inj (hdeg'.symm.trans hdeg)
  exact ⟨htext, hmask⟩

/-- Where the image and the symbols are written, an EMBED run step below `LEN` embeds its byte (R103 to R105, R107). -/
theorem runStep_embedsItsByte {d : Degree} {s t : State} (hinv : RunInv s) (hdeg : Degree.ofField s.deg = some d)
    (hop : s.op = 0x3) (hcur : s.cur < s.len) (himg : WrittenFrom s .img 0 s.len.toNat)
    (hsym : WrittenFrom s .sym 0 s.cnt.toNat) (hshr : ShrHoldsSymbol d s) (h : runStep s = .next t) : EmbedsItsByte d s t := by
  obtain ⟨px, hpx⟩ := Option.isSome_iff_exists.mp (himg s.cur.toNat hcur (Nat.zero_le _))
  obtain ⟨htext, hmask⟩ := runInv_masks hinv hdeg
  obtain ⟨-, hpos, -⟩ := runInv_at_degree hinv hdeg
  replace hpos := hpos hop
  obtain ⟨d', hdeg', -, -, -, hstep⟩ := runStep_cases h
  obtain rfl : d' = d := Option.some.inj (hdeg'.symm.trans hdeg)
  obtain ⟨-, hheader, hcopy⟩ | ⟨-, hbeyond, hmore, hbody⟩ | ⟨-, hbeyond, hend, -, hcopy⟩ | ⟨-, -, -, hdone, -⟩ |
    ⟨hop4, -⟩ | ⟨hop4, -⟩ := hstep
  · obtain ⟨-, -, hchunk⟩ | ⟨-, -, hplace⟩ | ⟨-, -, htail, -⟩ := hpos
    · exact copyByte_embedsItsByte hcur hchunk (isCarrier_header hheader) hpx hcopy
    · omega
    · omega
  · obtain ⟨v, hv⟩ := Option.isSome_iff_exists.mp (hsym s.sidx.toNat hmore (Nat.zero_le _))
    have hbodyPos := bodyPosition_of_embedPosition hpos hbeyond hmore
    exact embedBodyStep_embedsItsByte htext hmask hcur hmore hbodyPos hpx hv hshr hbody
  · obtain ⟨hheader, -, -⟩ | ⟨hmore, -, -⟩ | ⟨-, hchunk, htail, -⟩ := hpos
    · omega
    · exact absurd hmore (by simp [hend])
    · exact copyByte_embedsItsByte hcur hchunk (isCarrier_tail htail) hpx hcopy
  · exact absurd hcur (by simp [hdone])
  · exact absurd (hop.symm.trans hop4) (by decide)
  · exact absurd (hop.symm.trans hop4) (by decide)

/-! ## A whole EMBED (`42_embed.md` rules R107, R113) -/

/-- A run that goes from each address below `e` to the next comes to `e`, one step for each address. -/
theorem stepN_of_run {At : Nat → State → Prop} {e : Nat}
    (hnext : ∀ i s, i < e → At i s → ∃ t, step s = .next t ∧ At (i + 1) t) (m : Nat) :
    ∀ i s, i + m = e → At i s → ∃ t, stepN m s = .next t ∧ At e t := by
  induction m with
  | zero => exact fun i s hi hs => ⟨s, rfl, by obtain rfl : i = e := hi; exact hs⟩
  | succ m ih =>
    intro i s hi hs
    obtain ⟨t, ht, hat⟩ := hnext i s (by omega) hs
    rw [stepN_succ m ht]
    exact ih (i + 1) t (by omega) hat

/-- `s` is in the EMBED that began in `s0`, at address `i`: `IMG` and `SYM` are as they were, `OUT` has the closed form below
`i` and what it held from there on, and `SHR` holds the symbol in progress (R107). -/
structure EmbedAt (s0 : State) (d : Degree) (len cnt : Len) (i : Nat) (s : State) : Prop where
  run : RunAt s0 0x3 d len cnt i s
  img : s.img = s0.img
  sym : s.sym = s0.sym
  out : ∀ j, s.byteAt .out j = if j < i then embedResult s0 d len cnt j else s0.byteAt .out j
  shr : ShrHoldsSymbol d s

/-- The accept step of a valid EMBED comes to address 0, with every space as it was (R102). -/
theorem step_starts_embedAt {s : State} {d : Degree} {len cnt : Len} (h : Presents s (encode (.embed d.field len cnt)))
    (hadm : admissible d len cnt = true) : ∃ t, step s = .next t ∧ EmbedAt s d len cnt 0 t := by
  obtain ⟨t, ht, -, hrun⟩ := step_starts_embed h hadm
  have hstart : step s = .next (startRun 0x3 d len cnt 0 (s.begin [])) := by
    rw [step_of_presents h, acceptStep, decode_encode_embed]
    exact exec_embed_of_admissible _ hadm
  cases hstart.symm.trans ht
  exact ⟨_, ht, hrun, rfl, rfl, fun j => rfl, shrHoldsSymbol_of_chunk_zero rfl⟩

/-- A step of an EMBED below `LEN` makes the closed form true at its address and leads to the next one (R103 to R105). -/
theorem step_embedAt {s0 s : State} {d : Degree} {len cnt : Len} {i : Nat} (hstorage : EmbedStorage s0 len cnt)
    (himg : WrittenFrom s0 .img 0 len.toNat) (hsym : WrittenFrom s0 .sym 0 cnt.toNat) (hi : i < len.toNat)
    (hs : EmbedAt s0 d len cnt i s) : ∃ t, step s = .next t ∧ EmbedAt s0 d len cnt (i + 1) t := by
  obtain ⟨t, ht, -, hrun⟩ := step_embed_byte hstorage hi hs.run
  have himgAt (j : Nat) : (s.begin []).byteAt .img j = s0.byteAt .img j := byteAt_congr (by exact hs.img) j
  have hsymAt (k : Nat) : (s.begin []).byteAt .sym k = s0.byteAt .sym k := byteAt_congr (by exact hs.sym) k
  obtain ⟨w, hw, hstores, hshr⟩ := runStep_embedsItsByte (s := s.begin []) hs.run.inv hs.run.deg hs.run.op
    (by rw [BitVec.lt_def, begin_cur, begin_len, hs.run.cur, hs.run.len]; exact hi)
    (by rw [begin_len, hs.run.len]; exact fun j hj hlo => by rw [himgAt]; exact himg j hj hlo)
    (by rw [begin_cnt, hs.run.cnt]; exact fun k hk hlo => by rw [hsymAt]; exact hsym k hk hlo)
    hs.shr (hs.run.step_eq ▸ ht)
  rw [begin_len, begin_cnt, begin_cur, hs.run.len, hs.run.cnt, hs.run.cur,
    embedResult_congr hi (himgAt i) (fun k _ => hsymAt k)] at hw
  rw [begin_cur, hs.run.cur] at hstores
  refine ⟨t, ht, hrun, hstores.img.trans hs.img, hstores.sym.trans hs.sym, fun j => ?_, hshr⟩
  by_cases hj : j = i
  · rw [hj, hstores.byteAt_same, if_pos (Nat.lt_succ_self i), hw]
  · have hbefore : j < i + 1 ↔ j < i := by omega
    rw [hstores.byteAt_other .out j (.inr hj), if_congr hbefore rfl rfl]
    exact hs.out j

/-- At `LEN` every symbol is done (R94, R106). -/
theorem embedPosition_at_len {d : Degree} {s : State} (hadm : admissible d s.len s.cnt = true) (hpos : EmbedPosition d s)
    (hcur : s.cur = s.len) : s.sidx = s.cnt ∧ s.chunk = 0 := by
  have hroom := carriers_lt_len hadm
  rw [← hcur] at hroom
  obtain ⟨hheader, -, -⟩ | ⟨hmore, hchunk, hplace⟩ | ⟨hend, hchunk, -, -⟩ := hpos
  · omega
  · have := mul_steps_add_lt hmore hchunk
    omega
  · exact ⟨hend, hchunk⟩

/-- Settles O24: the accept step, a step for each address of the image, and the completion. -/
theorem embedWritesTheClosedForm : Obligations.EmbedWritesTheClosedForm := by
  intro s d len cnt hpresents hadm hstorage himg hsym
  obtain ⟨u, hstart, hat⟩ := step_starts_embedAt hpresents hadm
  obtain ⟨v, hrun, hv⟩ := stepN_of_run (fun i s hi hs => step_embedAt hstorage himg hsym hi hs) len.toNat 0 u
    (Nat.zero_add _) hat
  have hcur : v.cur = v.len := BitVec.eq_of_toNat_eq (by rw [hv.run.cur, hv.run.len])
  have hend : step v = .next (completeRun d (v.begin [])) :=
    hv.run.step_eq.trans (runStep_embed_at_len (s := v.begin []) hv.run.inv hv.run.deg hv.run.op hcur)
  obtain ⟨hadmv, hpos, -⟩ := runInv_at_degree hv.run.inv hv.run.deg
  obtain ⟨hsidx, hchunk⟩ := embedPosition_at_len hadmv (hpos hv.run.op) hcur
  refine ⟨completeRun d (v.begin []), ?_, rfl, ?_, hcur.trans hv.run.len, hsidx.trans hv.run.cnt, hchunk, hv.img, hv.sym,
    fun i => ?_⟩
  · rw [stepN_succ _ hstart, stepN_add hrun, stepN_succ 0 hend, stepN]
  · rw [completeRun_eq_respond, respond_rsp, begin_cnt, hv.run.cnt]
  · refine (hv.out i).trans ?_
    split
    · rfl
    · rw [embedResult_beyond ‹_›]

/-! ## What the closed form says (`42_embed.md` rules R108, R110, R111) -/

/-- A chunk stands in the low `d` bits, which the image mask clears (R81, R104). -/
theorem chunkBits_and_imgMaskOf (d : Degree) (v : Byte) (c : Nat) : chunkBits d v c &&& imgMaskOf d = 0 := by
  rw [chunkBits, BitVec.and_assoc, BitVec.and_comm (extMaskOf d), imgMaskOf_and_extMaskOf]
  exact BitVec.and_zero

/-- Embedding keeps the bits above the degree (R110). -/
theorem carry_and_imgMaskOf (d : Degree) (px v : Byte) (c : Nat) : carry d px v c &&& imgMaskOf d = px &&& imgMaskOf d := by
  rw [carry, BitVec.and_or_distrib_right, chunkBits_and_imgMaskOf, BitVec.and_assoc, BitVec.and_self]
  exact BitVec.or_zero

/-- The closed form keeps the bits above the degree at every address of the image (R110). -/
theorem embedResult_keeps_high_bits {s : State} {d : Degree} {len cnt : Len} {i : Nat} {px : Byte} (hi : i < len.toNat)
    (hsym : WrittenFrom s .sym 0 cnt.toNat) (hpx : s.byteAt .img i = some px) :
    ∃ w, embedResult s d len cnt i = some w ∧ w &&& imgMaskOf d = px &&& imgMaskOf d := by
  cases hcarrier : isCarrier d cnt.toNat i with
  | false => exact ⟨px, (embedResult_copy hi hcarrier).trans hpx, rfl⟩
  | true =>
    obtain ⟨v, hv⟩ := Option.isSome_iff_exists.mp (hsym _ (symbolOf_lt hcarrier) (Nat.zero_le _))
    exact ⟨_, embedResult_carrier hi hcarrier hpx hv, carry_and_imgMaskOf d px v _⟩

/-- Settles O25: the header holds no carrier byte, and a carrier byte keeps its bits above the degree. -/
theorem embedKeepsHeaderAndHighBits : Obligations.EmbedKeepsHeaderAndHighBits := by
  intro s d len cnt hpresents hadm hstorage himg hsym
  obtain ⟨t, hrun, hphase, -, -, -, -, -, -, hout⟩ := embedWritesTheClosedForm s d len cnt hpresents hadm hstorage himg hsym
  refine ⟨t, hrun, hphase, fun i hi => ?_, fun i hi => ?_⟩
  · have hroom : 54 + cnt.toNat * d.steps < len.toNat := carriers_lt_len hadm
    rw [hout, embedResult_copy (by omega) (isCarrier_header hi)]
  · obtain ⟨px, hpx⟩ := Option.isSome_iff_exists.mp (himg i hi (Nat.zero_le _))
    obtain ⟨w, hw, hkeeps⟩ := embedResult_keeps_high_bits hi hsym hpx
    exact ⟨px, w, hpx, (hout i).trans hw, hkeeps⟩

/-- Bytes found equal are written equally (R56). -/
theorem writtenFrom_congr {s s' : State} {sp : Space} {n : Nat} (h : ∀ i, i < n → s'.byteAt sp i = s.byteAt sp i)
    (hs : WrittenFrom s sp 0 n) : WrittenFrom s' sp 0 n :=
  fun i hi hlo => by rw [h i hi]; exact hs i hi hlo

/-- Settles O27: both runs end in the closed form, which the shared bytes determine. -/
theorem embedIsAPureFunction : Obligations.EmbedIsAPureFunction := by
  intro s s' d len cnt hpresents hpresents' hadm hstorage hstorage' himg hsym heqImg heqSym
  obtain ⟨t, hrun, hphase, hrsp, -, -, -, -, -, hout⟩ :=
    embedWritesTheClosedForm s d len cnt hpresents hadm hstorage himg hsym
  obtain ⟨t', hrun', hphase', hrsp', -, -, -, -, -, hout'⟩ := embedWritesTheClosedForm s' d len cnt hpresents' hadm hstorage'
    (writtenFrom_congr heqImg himg) (writtenFrom_congr heqSym hsym)
  refine ⟨t, t', hrun, hrun', hphase, hphase', hrsp'.trans hrsp.symm, fun i hi => ?_⟩
  rw [hout, hout', embedResult_congr hi (heqImg i hi) heqSym]

end Sys2Proof.Machine

/-! SUPPORT. The statements about EXTRACT (`43_extract.md`): the accept step with its checks, the body step whole, the run as an
invariant over the carrier bytes, and what the closed form gives back of an embedded symbol. -/

namespace Sys2Proof.Machine

/-! ## The accept step of EXTRACT (`43_extract.md` rules R121, R122) -/

/-- Error entry for a count that is not admissible: the word is `0x0000000003` (R67, R154). -/
theorem raiseError_readTooLarge (s : State) :
    raiseError .readTooLarge s = { s with rsp := 0x0000000003, phase := .resp } := by
  rw [raiseError, respond, show responseWord .readTooLarge false 0 = 0x0000000003 by decide]

/-- An illegal degree is refused before the count is looked at (R121, R152). -/
theorem exec_extract_of_illegal {deg : DegField} (len cnt : Len) (s : State) (hdeg : Degree.ofField deg = none) :
    exec (.extract deg len cnt) s = .next (raiseError .invalidDegree s) := by
  simp only [exec, execExtract, hdeg]

/-- Settles O28: the integer inequality is the check of the accept step. -/
theorem extractStartsTheRun : Obligations.ExtractStartsTheRun :=
  fun s _ _ _ h => ⟨true, exec_extract_of_admissible s (admissible_iff.mpr h)⟩

/-- Settles O29: the degree check, then the capacity check. -/
theorem extractChecksDegreeThenCapacity : Obligations.ExtractChecksDegreeThenCapacity := by
  refine fun s len cnt => ⟨fun deg h1 h2 h4 h8 => ?_, fun d h => ?_⟩
  · rw [exec_extract_of_illegal len cnt s (ofField_eq_none h1 h2 h4 h8), raiseError_invalidDegree]
  · rw [exec_extract_of_not_admissible s (admissible_iff.not.mpr h), raiseError_readTooLarge]

/-! ## The body step, whole (`43_extract.md` rule R123) -/

/-- The last chunk of a symbol, by the chunk's number (R123). -/
theorem lastChunk_eq_true_iff {d : Degree} {s : State} : s.lastChunk d = true ↔ s.chunk.toNat + 1 = d.steps := by
  simp [State.lastChunk]

/-- A chunk before the last of its symbol, by its number (R123). -/
theorem lastChunk_eq_false_iff {d : Degree} {s : State} : s.lastChunk d = false ↔ s.chunk.toNat + 1 ≠ d.steps := by
  simp [State.lastChunk]

/-- The accumulator after a pixel byte does not depend on the host's moves left. -/
@[simp] theorem accumulate_begin (d : Degree) (s : State) (rest : List HostMove) (px : Byte) :
    accumulate d (s.begin rest) px = accumulate d s px := rfl

/-- Settles O30: the two kinds of body step, at the last chunk of a symbol and before it. -/
theorem extractBodyStepGathersOneChunk : Obligations.ExtractBodyStepGathersOneChunk := by
  intro s rest d px a hrunning hop hmore himg hsym hpx ha
  have ha : a = accumulate d s px := ha
  have hstep : step s = outcomeOf (extractBodyStep d (s.begin rest)) := by
    rw [step_of_running_extract hrunning hop, extractRunStep_body (by exact hmore)]
  by_cases hlast : s.chunk.toNat + 1 = d.steps
  · rw [extractBodyStep_ok_last (s := s.begin rest) (lastChunk_eq_true_iff.mpr hlast) himg (hsym hlast), begin_cur,
      draw_begin_byte, draw_begin_draws, ← hpx, accumulate_begin, ← ha] at hstep
    refine ⟨_, hstep, by simp [hlast], fun _ => ?_, fun sp i hne => ?_⟩
    · exact byteAt_setSpace_write_same .sym s.sidx.toNat a s
    · have hne : sp ≠ .sym ∨ i ≠ s.sidx.toNat := by simpa [hlast] using hne
      rw [← byteAt_setSpace_write_other a s hne]
      cases sp <;> rfl
  · rw [extractBodyStep_ok_within (s := s.begin rest) (lastChunk_eq_false_iff.mpr hlast) himg, begin_cur,
      draw_begin_byte, draw_begin_draws, ← hpx, accumulate_begin, ← ha] at hstep
    refine ⟨_, hstep, by simp [hlast], fun h => absurd h hlast, fun sp i _ => ?_⟩
    cases sp <;> rfl

/-! ## The sum over the carrier bytes of a symbol (`43_extract.md` rule R125) -/

/-- One more pixel byte moves the sum up by a chunk and adds the low bits of the byte (R16, R125). -/
theorem gather_append_singleton (d : Degree) (l : List Byte) (px : Byte) :
    gather d (l ++ [px]) = gather d l * 2 ^ d.bits + (px &&& extMaskOf d).toNat := by
  induction l with
  | nil => simp [gather]
  | cons x l ih =>
    rw [List.cons_append, gather, gather, ih, List.length_append, List.length_singleton, Nat.mul_add_one, Nat.pow_add]
    ring

/-- A shifted accumulator and the low bits of a pixel byte share no bit (R16). -/
theorem shiftLeft_and_extMaskOf (d : Degree) (a px : Byte) : (a <<< d.bits) &&& (px &&& extMaskOf d) = 0 := by
  apply BitVec.eq_of_getLsbD_eq
  intro j hj
  rw [BitVec.getLsbD_and, BitVec.getLsbD_and, BitVec.getLsbD_shiftLeft, extMaskOf_getLsbD d hj]
  by_cases hjd : j < d.bits <;> simp [hjd]

/-- A power of two, cut at 8 bits, is one bit of a byte. -/
theorem ofNat_two_pow (n : Nat) : BitVec.ofNat 8 (2 ^ n) = BitVec.twoPow 8 n :=
  BitVec.eq_of_toNat_eq (by rw [BitVec.toNat_ofNat, BitVec.toNat_twoPow])

/-- Joining a pixel byte to the accumulator is the step of the sum, at 8 bits (R16, R125). -/
theorem ofNat_gather_append_singleton (d : Degree) (l : List Byte) (px : Byte) :
    BitVec.ofNat 8 (gather d (l ++ [px])) = (BitVec.ofNat 8 (gather d l) <<< d.bits) ||| (px &&& extMaskOf d) := by
  rw [← BitVec.add_eq_or_of_and_eq_zero _ _ (shiftLeft_and_extMaskOf d _ px), gather_append_singleton, BitVec.ofNat_add,
    BitVec.ofNat_mul, BitVec.ofNat_toNat, BitVec.setWidth_eq, BitVec.shiftLeft_eq_mul_twoPow, ofNat_two_pow]

/-- The accumulator of EXTRACT after the first `c` carrier bytes of symbol `k`, if all are written: the closed form of R125 cut
short at chunk `c`. -/
def gathered (s : State) (d : Degree) (k c : Nat) : Option Byte :=
  ((List.range c).mapM (fun j => s.byteAt .img (Config.headerSize + k * d.steps + j))).map
    (fun l => BitVec.ofNat 8 (gather d l))

/-- With all its carrier bytes a symbol is what the closed form says (R125). -/
theorem extractResult_eq_gathered (s : State) (d : Degree) (cnt : Len) (k : Nat) :
    extractResult s d cnt k = if k < cnt.toNat then gathered s d k d.steps else s.byteAt .sym k := rfl

@[simp] theorem gathered_zero (s : State) (d : Degree) (k : Nat) : gathered s d k 0 = some 0 := rfl

/-- The next carrier byte joins the accumulator (R16, R123). -/
theorem gathered_succ {s : State} {d : Degree} {k c : Nat} {a px : Byte} (ha : gathered s d k c = some a)
    (hpx : s.byteAt .img (Config.headerSize + k * d.steps + c) = some px) :
    gathered s d k (c + 1) = some ((a <<< d.bits) ||| (px &&& extMaskOf d)) := by
  obtain ⟨l, hl, rfl⟩ := Option.map_eq_some_iff.mp ha
  simp [gathered, List.range_succ, List.mapM_append, hl, hpx, ofNat_gather_append_singleton]

/-- Looking up the elements of a list, one after the other, is determined by what each is found to be. -/
theorem mapM_congr_of_mem {α β : Type} {f g : α → Option β} {l : List α} (h : ∀ x ∈ l, f x = g x) :
    l.mapM f = l.mapM g := by
  induction l with
  | nil => rfl
  | cons x l ih =>
    rw [List.mapM_cons, List.mapM_cons, h x List.mem_cons_self, ih fun y hy => h y (List.mem_cons_of_mem x hy)]

/-- The closed form depends on the carrier bytes alone (R125, R128). -/
theorem gathered_congr {s s' : State} {d : Degree} {k n : Nat} (hk : k < n)
    (h : ∀ i, isCarrier d n i = true → s'.byteAt .img i = s.byteAt .img i) :
    gathered s' d k d.steps = gathered s d k d.steps := by
  rw [gathered, mapM_congr_of_mem fun j hj => h _ (isCarrier_carrier hk (List.mem_range.mp hj) rfl), gathered]

/-! ## What a body step of EXTRACT makes true (`43_extract.md` rule R123) -/

/-- `s`, in an EXTRACT that began in `s0`, has the closed form in `SYM` below `SIDX` and what it held from there on, and the
chunks of the symbol in progress in `ACC` (R16, R125). -/
structure GatheredSoFar (s0 : State) (d : Degree) (s : State) : Prop where
  sym : ∀ k, s.byteAt .sym k = if k < s.sidx.toNat then gathered s0 d k d.steps else s0.byteAt .sym k
  acc : gathered s0 d s.sidx.toNat s.chunk.toNat = some s.acc

/-- Before the first chunk, with `ACC` clear and `SYM` as it was, nothing is left to be gathered (R122). -/
theorem gatheredSoFar_at_start {s0 s : State} {d : Degree} (hsym : s.sym = s0.sym) (hsidx : s.sidx = 0) (hchunk : s.chunk = 0)
    (hacc : s.acc = 0) : GatheredSoFar s0 d s where
  sym k := by rw [hsidx, byteAt_congr (by exact hsym)]; rfl
  acc := by rw [hchunk, hacc]; rfl

/-- A body step gathers the pixel byte at its place, and stores a finished symbol (R123). -/
theorem extractBodyStep_keeps_gatheredSoFar {s0 s t : State} {d : Degree} {px : Byte} (hmask : s.imgMask = imgMaskOf d)
    (hmore : s.sidx < s.cnt) (hpos : ExtractPosition d s) (hpx0 : s0.byteAt .img s.cur.toNat = some px)
    (hpx : s.byteAt .img s.cur.toNat = some px) (hs : GatheredSoFar s0 d s) (h : extractBodyStep d s = .ok t) :
    GatheredSoFar s0 d t := by
  obtain ⟨-, hchunk, -, hplace⟩ := hpos
  have hnext : gathered s0 d s.sidx.toNat (s.chunk.toNat + 1) = some (accumulate d s px) := by
    rw [gathered_succ hs.acc (hplace ▸ hpx0), accumulate, hmask, extMaskOf]
  obtain ⟨-, ⟨hlast, -, rfl⟩ | ⟨hwithin, rfl⟩⟩ := extractBodyStep_cases h
  · rw [lastChunk_eq_true_iff] at hlast
    have hsidx : (s.sidx + 1).toNat = s.sidx.toNat + 1 := by bv_omega
    rw [draw_of_written hpx]
    refine ⟨fun k => ?_, gathered_zero s0 d _⟩
    rw [hsidx]
    by_cases hk : k = s.sidx.toNat
    · rw [hk, if_pos (Nat.lt_succ_self _), ← hlast, hnext]
      exact byteAt_setSpace_write_same .sym s.sidx.toNat _ s
    · have hbefore : k < s.sidx.toNat + 1 ↔ k < s.sidx.toNat := by omega
      rw [if_congr hbefore rfl rfl, ← hs.sym k]
      exact byteAt_setSpace_write_other (sp := .sym) (sp' := .sym) (accumulate d s px) s (.inr hk)
  · rw [lastChunk_eq_false_iff] at hwithin
    have hfits := steps_le d
    have hchunk' : (s.chunk + 1).toNat = s.chunk.toNat + 1 := by bv_omega
    rw [draw_of_written hpx]
    exact ⟨hs.sym, by rw [hchunk', hnext]⟩

/-! ## A whole EXTRACT (`43_extract.md` rules R125, R131) -/

/-- `s` is in the EXTRACT that began in `s0`, at address `i`: `IMG` and `OUT` are as they were, and what the carrier bytes below
`i` carry is gathered (R125). -/
structure ExtractAt (s0 : State) (d : Degree) (len cnt : Len) (i : Nat) (s : State) : Prop where
  run : RunAt s0 0x4 d len cnt i s
  img : s.img = s0.img
  out : s.out = s0.out
  symbols : GatheredSoFar s0 d s

/-- The accept step of a valid EXTRACT comes to the first carrier byte, with every space as it was (R122). -/
theorem step_starts_extractAt {s : State} {d : Degree} {len cnt : Len} (h : Presents s (encode (.extract d.field len cnt)))
    (hadm : admissible d len cnt = true) : ∃ t, step s = .next t ∧ ExtractAt s d len cnt Config.headerSize t := by
  obtain ⟨t, ht, -, hrun⟩ := step_starts_extract h hadm
  have hstart : step s =
      .next { startRun 0x4 d len cnt (BitVec.ofNat 32 Config.headerSize) (s.begin []) with acc := 0 } := by
    rw [step_of_presents h, acceptStep, decode_encode_extract]
    exact exec_extract_of_admissible _ hadm
  cases hstart.symm.trans ht
  exact ⟨_, ht, hrun, rfl, rfl, gatheredSoFar_at_start rfl rfl rfl rfl⟩

/-- A run step of an EXTRACT with symbols left is a body step (R138). -/
theorem extractBodyStep_of_runStep {d : Degree} {s t : State} (hdeg : Degree.ofField s.deg = some d) (hop : s.op = 0x4)
    (hmore : s.sidx < s.cnt) (h : runStep s = .next t) : extractBodyStep d s = .ok t := by
  obtain ⟨d', hdeg', hchunk, hsidx, hcur, -⟩ := runStep_cases h
  obtain rfl : d' = d := Option.some.inj (hdeg'.symm.trans hdeg)
  rwa [runStep_extract hdeg hchunk hsidx hcur hop, extractRunStep_body hmore, outcomeOf_next_iff] at h

/-- A step of an EXTRACT in the carrier region gathers the byte at its address and leads to the next one (R123). -/
theorem step_extractAt {s0 s : State} {d : Degree} {len cnt : Len} {i : Nat} (hadm : admissible d len cnt = true)
    (hstorage : ExtractStorage s0 d cnt) (himg : WrittenFrom s0 .img 54 (54 + cnt.toNat * d.steps))
    (hi : i < Config.headerSize + cnt.toNat * d.steps) (hs : ExtractAt s0 d len cnt i s) :
    ∃ t, step s = .next t ∧ ExtractAt s0 d len cnt (i + 1) t := by
  obtain ⟨t, ht, -, hrun⟩ := step_extract_byte hadm hstorage hi hs.run
  have hrunStep : runStep (s.begin []) = .next t := hs.run.step_eq ▸ ht
  obtain ⟨-, hpos, hpos4⟩ := runInv_at_degree (s := s.begin []) hs.run.inv hs.run.deg
  replace hpos := hpos4 hs.run.op
  have hmore := (sidx_lt_cnt_iff hpos).mpr (by rw [begin_cur, begin_cnt, hs.run.cur, hs.run.cnt]; exact hi)
  have hbody := extractBodyStep_of_runStep (s := s.begin []) hs.run.deg hs.run.op hmore hrunStep
  have hports := runStep_keepsToItsPorts hrunStep
  obtain ⟨px, hpx⟩ : ∃ px, s0.byteAt .img (s.begin []).cur.toNat = some px := by
    obtain ⟨-, -, -, hplace⟩ := hpos
    have hbeyond : Config.headerSize ≤ (s.begin []).cur.toNat := by omega
    exact Option.isSome_iff_exists.mp (himg _ (by rw [begin_cur, hs.run.cur]; exact hi) hbeyond)
  refine ⟨t, ht, hrun, hports.img.trans hs.img,
    (hports.out (by rw [begin_op, hs.run.op]; decide)).trans hs.out, ?_⟩
  exact extractBodyStep_keeps_gatheredSoFar (runInv_masks (s := s.begin []) hs.run.inv hs.run.deg).2 hmore hpos hpx
    ((byteAt_congr (by exact hs.img) _).trans hpx) ⟨hs.symbols.sym, hs.symbols.acc⟩ hbody

/-- Behind the last carrier byte every symbol is done and the accumulator is clear (R123, R124). -/
theorem ExtractAt.at_end {s0 s : State} {d : Degree} {len cnt : Len}
    (h : ExtractAt s0 d len cnt (Config.headerSize + cnt.toNat * d.steps) s) : s.sidx = cnt ∧ s.chunk = 0 ∧ s.acc = 0 := by
  obtain ⟨-, -, hpos⟩ := runInv_at_degree h.run.inv h.run.deg
  have hdone := (sidx_lt_cnt_iff (hpos h.run.op)).not.mpr (by rw [h.run.cur, h.run.cnt]; exact lt_irrefl _)
  obtain ⟨hsidx, -, hend, -⟩ := hpos h.run.op
  have hall : s.sidx = s.cnt := by bv_omega
  have hacc := h.symbols.acc
  rw [hend hall] at hacc
  exact ⟨hall.trans h.run.cnt, hend hall, (Option.some.inj hacc).symm⟩

/-- Settles O31: the accept step, a step for each carrier byte, and the completion. -/
theorem extractWritesTheClosedForm : Obligations.ExtractWritesTheClosedForm := by
  intro s d len cnt hpresents hadm hstorage himg
  obtain ⟨u, hstart, hat⟩ := step_starts_extractAt hpresents hadm
  obtain ⟨v, hrun, hv⟩ := stepN_of_run (fun i s hi hs => step_extractAt hadm hstorage himg hi hs) (cnt.toNat * d.steps)
    Config.headerSize u rfl hat
  have hend : step v = .next (completeRun d (v.begin [])) :=
    hv.run.step_eq.trans (runStep_extract_at_end (s := v.begin []) hv.run.inv hv.run.deg hv.run.op
      (by rw [begin_cur, begin_cnt, hv.run.cur, hv.run.cnt]))
  obtain ⟨hsidx, hchunk, hacc⟩ := hv.at_end
  refine ⟨completeRun d (v.begin []), ?_, rfl, ?_, hv.run.cur, hchunk, hacc, hv.img, hv.out, fun k => ?_⟩
  · rw [stepN_succ _ hstart, stepN_add hrun, stepN_succ 0 hend, stepN]
  · rw [completeRun_eq_respond, respond_rsp, begin_cnt, hv.run.cnt]
  · rw [extractResult_eq_gathered, ← hsidx]
    exact hv.symbols.sym k

/-! ## What the closed form gives back (`43_extract.md` rules R126, R128) -/

/-- The carrier bytes of `n` symbols follow the header, `STEPS` for each (R44). -/
theorem isCarrier_iff {d : Degree} {n i : Nat} :
    isCarrier d n i = true ↔ Config.headerSize ≤ i ∧ i < Config.headerSize + n * d.steps := by
  simp only [isCarrier, Bool.and_eq_true, decide_eq_true_eq]

/-- The host has written what an EXTRACT reads when it has written every carrier byte (R174). -/
theorem writtenFrom_iff_carriers {s : State} {d : Degree} {n : Nat} :
    WrittenFrom s .img 54 (54 + n * d.steps) ↔ ∀ i, isCarrier d n i = true → (s.byteAt .img i).isSome = true := by
  simp only [WrittenFrom, isCarrier_iff]
  exact ⟨fun h i ⟨hlo, hi⟩ => h i hi hlo, fun h i hi hlo => h i ⟨hlo, hi⟩⟩

/-- Below the count the closed form is the sum over the carrier bytes (R125). -/
theorem extractResult_of_lt {s : State} {d : Degree} {cnt : Len} {k : Nat} (hk : k < cnt.toNat) :
    extractResult s d cnt k = gathered s d k d.steps := if_pos hk

/-- The carrier bytes of fewer symbols are among those of more (R44, R128). -/
theorem isCarrier_mono {d : Degree} {n m i : Nat} (hle : n ≤ m) (h : isCarrier d n i = true) : isCarrier d m i = true := by
  obtain ⟨hlo, hi⟩ := isCarrier_iff.mp h
  exact isCarrier_iff.mpr ⟨hlo, hi.trans_le (Nat.add_le_add_left (Nat.mul_le_mul_right _ hle) _)⟩

/-- Settles O34: both runs end in the closed form, which at a symbol of both looks at shared bytes alone. -/
theorem smallerCountExtractsAPrefix : Obligations.SmallerCountExtractsAPrefix := by
  intro s s' d len len' cnt cnt' hle hpresents hadm hstorage hpresents' hadm' hstorage' himg' heq
  have himg : WrittenFrom s .img 54 (54 + cnt.toNat * d.steps) := writtenFrom_iff_carriers.mpr fun i hi => by
    rw [heq i hi]
    exact writtenFrom_iff_carriers.mp himg' i (isCarrier_mono (BitVec.le_def.mp hle) hi)
  obtain ⟨t, hrun, hphase, hrsp, -, -, -, -, -, hsym⟩ := extractWritesTheClosedForm s d len cnt hpresents hadm hstorage himg
  obtain ⟨t', hrun', hphase', hrsp', -, -, -, -, -, hsym'⟩ :=
    extractWritesTheClosedForm s' d len' cnt' hpresents' hadm' hstorage' himg'
  refine ⟨t, t', hrun, hrun', hphase, hphase', by rw [hrsp, codeField_responseWord]; rfl,
    by rw [hrsp', codeField_responseWord]; rfl, fun k hk => ?_⟩
  rw [hsym, hsym', extractResult_of_lt hk, extractResult_of_lt (hk.trans_le (BitVec.le_def.mp hle)),
    gathered_congr hk fun i hi => heq i hi]

/-- The low bits of a carrier byte are the chunk it was given (R82, R107). -/
theorem carry_and_extMaskOf (d : Degree) (px v : Byte) (c : Nat) : carry d px v c &&& extMaskOf d = chunkBits d v c := by
  rw [carry, BitVec.and_or_distrib_right, BitVec.and_assoc, imgMaskOf_and_extMaskOf, chunkBits, BitVec.and_assoc,
    BitVec.and_self]
  simp

/-- The top bits of a symbol, with its next chunk joined below them, are its top bits up to the next place (R45). -/
theorem top_bits_append_chunkBits {d : Degree} (v : Byte) {c : Nat} (hc : c < d.steps) :
    ((v >>> (8 - d.bits * c)) <<< d.bits) ||| chunkBits d v c = v >>> (8 - d.bits * (c + 1)) := by
  have hfit : d.bits * (c + 1) ≤ 8 := bits_mul_succ_le hc
  rw [Nat.mul_add_one] at hfit
  apply BitVec.eq_of_getLsbD_eq
  intro j hj
  rw [BitVec.getLsbD_or, BitVec.getLsbD_shiftLeft, chunkBits, BitVec.getLsbD_and, extMaskOf_getLsbD d hj,
    BitVec.getLsbD_ushiftRight, BitVec.getLsbD_ushiftRight, Nat.mul_add_one]
  by_cases hjd : j < d.bits
  · simp [hjd]
  · simp [hj, hjd, show 8 - d.bits * c + (j - d.bits) = 8 - (d.bits * c + d.bits) + j by omega]

/-- Where the carrier bytes of symbol `k` carry the chunks of `v`, the accumulator holds the chunks of `v` taken in (R126). -/
theorem gathered_of_carried {u : State} {d : Degree} {k : Nat} {v : Byte}
    (h : ∀ c, c < d.steps → ∃ px, u.byteAt .img (Config.headerSize + k * d.steps + c) = some (carry d px v c)) (c : Nat)
    (hc : c ≤ d.steps) : gathered u d k c = some (v >>> (8 - d.bits * c)) := by
  induction c with
  | zero => rw [gathered_zero, Nat.mul_zero, BitVec.ushiftRight_eq_zero le_rfl]; rfl
  | succ c ih =>
    obtain ⟨px, hpx⟩ := h c hc
    rw [gathered_succ (ih (Nat.le_of_succ_le hc)) hpx, carry_and_extMaskOf, top_bits_append_chunkBits v hc]

/-- Where the carrier bytes of symbol `k` carry the chunks of `v`, the symbol gathered is `v` (R126). -/
theorem gathered_steps_of_carried {u : State} {d : Degree} {k : Nat} {v : Byte}
    (h : ∀ c, c < d.steps → ∃ px, u.byteAt .img (Config.headerSize + k * d.steps + c) = some (carry d px v c)) :
    gathered u d k d.steps = some v := by
  rw [gathered_of_carried h d.steps le_rfl, Nat.mul_comm, steps_mul_bits]
  simp

/-- The closed form of EMBED at chunk `c` of symbol `k` carries that chunk (R107). -/
theorem embedResult_at_chunk {s : State} {d : Degree} {len cnt : Len} {k c : Nat} {v : Byte}
    (hadm : admissible d len cnt = true) (himg : WrittenFrom s .img 0 len.toNat) (hk : k < cnt.toNat) (hc : c < d.steps)
    (hv : s.byteAt .sym k = some v) :
    ∃ px, embedResult s d len cnt (Config.headerSize + k * d.steps + c) = some (carry d px v c) := by
  have hroom := carriers_lt_len hadm
  have hcarrier := mul_steps_add_lt hk hc
  have hi : Config.headerSize + k * d.steps + c < len.toNat := by omega
  obtain ⟨px, hpx⟩ := Option.isSome_iff_exists.mp (himg _ hi (Nat.zero_le _))
  have hsymbol := symbolOf_carrier hc (rfl : _ = Config.headerSize + k * d.steps + c)
  refine ⟨px, ?_⟩
  rw [embedResult_carrier hi (isCarrier_carrier hk hc rfl) hpx (by rwa [hsymbol]), chunkOf_carrier hc rfl]

/-- Every byte of the image is written by an EMBED (R107). -/
theorem embedResult_isSome {s : State} {d : Degree} {len cnt : Len} {i : Nat} (hi : i < len.toNat)
    (himg : WrittenFrom s .img 0 len.toNat) (hsym : WrittenFrom s .sym 0 cnt.toNat) :
    (embedResult s d len cnt i).isSome = true := by
  obtain ⟨px, hpx⟩ := Option.isSome_iff_exists.mp (himg i hi (Nat.zero_le _))
  obtain ⟨w, hw, -⟩ := embedResult_keeps_high_bits (d := d) (cnt := cnt) hi hsym hpx
  rw [hw]; rfl

/-- Settles O33: EMBED leaves in each carrier byte the chunk EXTRACT takes from it, and the chunks make up the symbol. -/
theorem extractRecoversWhatEmbedWrote : Obligations.ExtractRecoversWhatEmbedWrote := by
  intro s d len cnt hpresents hadm hstorage himg hsym
  obtain ⟨t, hrun, hphase, hrsp, -, -, -, -, -, hout⟩ :=
    embedWritesTheClosedForm s d len cnt hpresents hadm hstorage himg hsym
  refine ⟨t, hrun, hphase, by rw [hrsp, codeField_responseWord]; rfl, fun u len' hpresents' hadm' hstorage' heq => ?_⟩
  have hcarried (i : Nat) (hi : isCarrier d cnt.toNat i = true) : u.byteAt .img i = embedResult s d len cnt i :=
    (heq i hi).trans (hout i)
  have himg' : WrittenFrom u .img 54 (54 + cnt.toNat * d.steps) := writtenFrom_iff_carriers.mpr fun i hi => by
    obtain ⟨-, hend⟩ := isCarrier_iff.mp hi
    rw [hcarried i hi]
    exact embedResult_isSome (hend.trans (carriers_lt_len hadm)) himg hsym
  obtain ⟨v, hrun', hphase', hrsp', -, -, -, -, -, hsym'⟩ :=
    extractWritesTheClosedForm u d len' cnt hpresents' hadm' hstorage' himg'
  refine ⟨v, hrun', hphase', hrsp', fun k hk => ?_⟩
  obtain ⟨w, hw⟩ := Option.isSome_iff_exists.mp (hsym k hk (Nat.zero_le _))
  rw [hsym', extractResult_of_lt hk, hw]
  refine gathered_steps_of_carried fun c hc => ?_
  obtain ⟨px, hpx⟩ := embedResult_at_chunk hadm himg hk hc hw
  exact ⟨px, (hcarried _ (isCarrier_carrier hk hc rfl)).trans hpx⟩

end Sys2Proof.Machine

/-! SUPPORT. The statements about the step relation (`44_sequencing.md`): what an accept step leaves alone, when an edge of a
running engine answers and what its path depends on, where a step can be refused, and the statements themselves. -/

namespace Sys2Proof.Machine

/-! ## The accept step and the response register (`44_sequencing.md` rules R136, R137, R139) -/

/-- An accept step writes registers and the ownership flag alone, and ends in `RESP` or `RUN` (R136). -/
theorem acceptStep_leaves_memory {cmd : Cmd} {s t : State} (h : acceptStep cmd s = .next t) :
    (t.phase = .resp ∨ t.phase = .run) ∧ t.bus = s.bus ∧ t.draws = s.draws ∧ ∀ sp, t.space sp = s.space sp := by
  obtain ⟨code, -, rfl⟩ | ⟨none, value, rfl⟩ | ⟨d, len, cnt, -, rfl⟩ | ⟨d, len, cnt, -, rfl⟩ := acceptStep_cases h <;>
    refine ⟨?_, rfl, rfl, fun sp => by cases sp <;> rfl⟩
  · exact .inl rfl
  · exact .inl rfl
  · exact .inr rfl
  · exact .inr rfl

/-- Settles O37: every accept step answers, and writes no memory. -/
theorem acceptStepTouchesNoMemory : Obligations.AcceptStepTouchesNoMemory := by
  intro cmd s
  obtain ⟨t, h⟩ := acceptStep_next cmd s
  obtain ⟨hphase, hbus, hdraws, hspace⟩ := acceptStep_leaves_memory h
  exact ⟨t, h, hphase, hbus, hdraws, fun sp i => byteAt_congr (hspace sp) i⟩

/-- An accept step keeps `RSP`, or answers (R137, R139). -/
theorem acceptStep_rsp_or_resp {cmd : Cmd} {s t : State} (h : acceptStep cmd s = .next t) :
    t.rsp = s.rsp ∨ t.phase = .resp := by
  obtain ⟨code, -, rfl⟩ | ⟨none, value, rfl⟩ | ⟨d, len, cnt, -, rfl⟩ | ⟨d, len, cnt, -, rfl⟩ := acceptStep_cases h
  · exact .inr rfl
  · exact .inr rfl
  · exact .inl rfl
  · exact .inl rfl

/-- A run step keeps `RSP`, or completes the run (R138, R139). -/
theorem runStep_rsp_or_resp {s t : State} (h : runStep s = .next t) : t.rsp = s.rsp ∨ t.phase = .resp := by
  obtain hbyte | ⟨-, -, d, rfl⟩ := runStep_handlesOneByte_or_completes h
  · exact .inl hbyte.rsp
  · exact .inr rfl

/-- Settles O40: of the host's moves and the kinds of clock edge, only an answer and reset write `RSP`. -/
theorem onlyRespondWritesTheResponse : Obligations.OnlyRespondWritesTheResponse := by
  intro s t h hne
  obtain ⟨p, rest, -, rfl⟩ | ⟨sp, a, v, rest, -, hfill⟩ | ⟨sp, a, rest, -, hread⟩ | ⟨sp, n, rest, -, hprovide⟩ |
    ⟨rest, -, hedge⟩ := step_cases h
  · exact absurd rfl hne
  · obtain ⟨-, -, rfl⟩ := hostFill_cases hfill
    exact absurd (by simp) hne
  · obtain ⟨-, -, rfl⟩ := hostRead_cases hread
    exact absurd rfl hne
  · obtain ⟨-, rfl⟩ := hostProvide_cases hprovide
    exact absurd rfl hne
  · obtain ⟨hrst, rfl⟩ | ⟨hrst, hphase, -, haccept⟩ | ⟨hrst, hphase, hrun⟩ | ⟨-, -, -, rfl⟩ | ⟨-, rfl, -⟩ :=
      clockEdge_cases hedge
    · exact .inr ⟨rfl, rfl, hrst⟩
    · exact .inl ⟨fun hresp => absurd (hphase.symm.trans hresp) nofun,
        (acceptStep_rsp_or_resp haccept).resolve_left hne, hrst⟩
    · exact .inl ⟨fun hresp => absurd (hphase.symm.trans hresp) nofun,
        (runStep_rsp_or_resp hrun).resolve_left hne, hrst⟩
    · exact absurd rfl hne
    · exact absurd rfl hne

/-! ## What the path of a run depends on (`44_sequencing.md` rules R138, R145) -/

/-- `s` and `s'` stand at the same point of the same run: they differ at most in what they store, in the data drawn or moved,
in the input lines and in the host's record. -/
structure SamePath (s s' : State) : Prop where
  phase : s'.phase = s.phase
  op : s'.op = s.op
  deg : s'.deg = s.deg
  len : s'.len = s.len
  cnt : s'.cnt = s.cnt
  cur : s'.cur = s.cur
  sidx : s'.sidx = s.sidx
  chunk : s'.chunk = s.chunk
  rsp : s'.rsp = s.rsp
  extents : s'.host.extents = s.host.extents
  bus : s'.busPlaces = s.busPlaces

/-- The same address has storage at the same point of a run (R55). -/
theorem SamePath.inExtent {s s' : State} (hsame : SamePath s s') {sp : Space} {a : Addr} (h : s.inExtent sp a = true) :
    s'.inExtent sp a = true :=
  (inExtent_congr hsame.extents sp a).trans h

/-- The same chunk is the last of its symbol at the same point of a run (R104, R123). -/
theorem SamePath.lastChunk {s s' : State} (hsame : SamePath s s') (d : Degree) : s'.lastChunk d = s.lastChunk d := by
  rw [State.lastChunk, hsame.chunk, State.lastChunk]

/-- The run step chooses by control registers alone (R138): if `s'` stands where `s` does and follows it through each kind of
step up to the relation `R`, then it follows it through the run step. -/
theorem runStep_follows {R : State → State → Prop} {s s' t : State} (hsame : SamePath s s')
    (hcopy : ∀ t, copyByte s = .ok t → ∃ t', copyByte s' = .ok t' ∧ R t t')
    (hembed : ∀ d t, embedBodyStep d s = .ok t → ∃ t', embedBodyStep d s' = .ok t' ∧ R t t')
    (hextract : ∀ d t, extractBodyStep d s = .ok t → ∃ t', extractBodyStep d s' = .ok t' ∧ R t t')
    (hcomplete : ∀ d, R (completeRun d s) (completeRun d s')) (h : runStep s = .next t) :
    ∃ t', runStep s' = .next t' ∧ R t t' := by
  obtain ⟨d, hdeg, hchunk, hsidx, hcur, hstep⟩ := runStep_cases h
  rw [← hsame.deg] at hdeg
  rw [← hsame.chunk] at hchunk
  simp only [← hsame.op, ← hsame.cur, ← hsame.sidx, ← hsame.cnt, ← hsame.len] at hsidx hcur hstep
  have hembedStep := runStep_embed hdeg hchunk hsidx hcur
  have hextractStep := runStep_extract hdeg hchunk hsidx hcur
  obtain ⟨hop, hheader, hok⟩ | ⟨hop, hbeyond, hmore, hok⟩ | ⟨hop, hbeyond, hend, hmore, hok⟩ |
    ⟨hop, hbeyond, hend, hlen, rfl⟩ | ⟨hop, hmore, hok⟩ | ⟨hop, hend, rfl⟩ := hstep
  · obtain ⟨t', ht', hR⟩ := hcopy t hok
    exact ⟨t', by rw [hembedStep hop, embedRunStep_header hheader, outcomeOf_next_iff, ht'], hR⟩
  · obtain ⟨t', ht', hR⟩ := hembed d t hok
    exact ⟨t', by rw [hembedStep hop, embedRunStep_body hbeyond hmore, outcomeOf_next_iff, ht'], hR⟩
  · obtain ⟨t', ht', hR⟩ := hcopy t hok
    exact ⟨t', by rw [hembedStep hop, embedRunStep_tail hbeyond hend hmore, outcomeOf_next_iff, ht'], hR⟩
  · exact ⟨_, by rw [hembedStep hop, embedRunStep_completion hbeyond hend hlen, outcomeOf_next_iff], hcomplete d⟩
  · obtain ⟨t', ht', hR⟩ := hextract d t hok
    exact ⟨t', by rw [hextractStep hop, extractRunStep_body hmore, outcomeOf_next_iff, ht'], hR⟩
  · exact ⟨_, by rw [hextractStep hop, extractRunStep_completion hend, outcomeOf_next_iff], hcomplete d⟩

/-- A header or tail step of EMBED leads from the same point to the same point (R103, R105). -/
theorem copyByte_samePath {s s' t : State} (hsame : SamePath s s') (h : copyByte s = .ok t) :
    ∃ t', copyByte s' = .ok t' ∧ SamePath t t' := by
  obtain ⟨himg, hout, rfl⟩ := copyByte_cases h
  rw [← hsame.cur] at himg hout
  refine ⟨_, copyByte_ok (hsame.inExtent himg) (hsame.inExtent hout), { hsame with cur := ?_, bus := ?_ }⟩
  · simp [hsame.cur]
  · have hbus := hsame.bus
    simp_all [State.busPlaces, Access.place, hsame.cur]

/-- Fetching the symbol of a body step leads from the same point to the same point (R104). -/
theorem embedSymbol_samePath {s s' s1 : State} {sv : Byte} (hsame : SamePath s s') (h : embedSymbol s = .ok (sv, s1)) :
    ∃ sv' s1', embedSymbol s' = .ok (sv', s1') ∧ SamePath s1 s1' := by
  obtain ⟨hfirst, hsym, hr⟩ | ⟨hlater, hr⟩ := embedSymbol_cases h <;> cases hr
  · rw [← hsame.chunk] at hfirst
    rw [← hsame.sidx] at hsym
    refine ⟨_, _, (if_pos hfirst).trans (memRead_ok (hsame.inExtent hsym)), { hsame with bus := ?_ }⟩
    have hbus := hsame.bus
    simp_all [State.busPlaces, Access.place, hsame.sidx]
  · rw [← hsame.chunk] at hlater
    exact ⟨s'.shr, s', if_neg hlater, hsame⟩

/-- Advancing the chunk leads from the same point to the same point (R13, R14). -/
theorem advanceChunk_samePath (d : Degree) {s s' : State} (hsame : SamePath s s') :
    SamePath (advanceChunk d s) (advanceChunk d s') := by
  rw [advanceChunk, advanceChunk, hsame.lastChunk]
  split
  · exact { hsame with sidx := by simp [hsame.sidx], chunk := rfl }
  · exact { hsame with chunk := by simp [hsame.chunk] }

/-- A body step of EMBED leads from the same point to the same point (R104). -/
theorem embedBodyStep_samePath {d : Degree} {s s' t : State} (hsame : SamePath s s') (h : embedBodyStep d s = .ok t) :
    ∃ t', embedBodyStep d s' = .ok t' ∧ SamePath t t' := by
  obtain ⟨sv, s1, hsym, himg, hout, rfl⟩ := embedBodyStep_cases h
  obtain ⟨sv', s1', hsym', hsame1⟩ := embedSymbol_samePath hsame hsym
  rw [← hsame.cur] at himg hout
  refine ⟨_, embedBodyStep_ok hsym' (hsame.inExtent himg) (hsame.inExtent hout),
    advanceChunk_samePath d { hsame1 with cur := ?_, bus := ?_ }⟩
  · simp [hsame.cur]
  · have hbus := hsame1.bus
    simp_all [State.busPlaces, Access.place, hsame.cur]

/-- A body step of EXTRACT leads from the same point to the same point (R123). -/
theorem extractBodyStep_samePath {d : Degree} {s s' t : State} (hsame : SamePath s s') (h : extractBodyStep d s = .ok t) :
    ∃ t', extractBodyStep d s' = .ok t' ∧ SamePath t t' := by
  have hbus := hsame.bus
  obtain ⟨himg, ⟨hlast, hsym, rfl⟩ | ⟨hlast, rfl⟩⟩ := extractBodyStep_cases h <;> rw [← hsame.cur] at himg
  · rw [← hsame.sidx] at hsym
    rw [← hsame.lastChunk] at hlast
    refine ⟨_, extractBodyStep_ok_last hlast (hsame.inExtent himg) (hsame.inExtent hsym),
      { hsame with cur := ?_, sidx := ?_, chunk := rfl, bus := ?_ }⟩
    · simp [hsame.cur]
    · simp [hsame.sidx]
    · simp_all [State.busPlaces, Access.place, hsame.cur, hsame.sidx]
  · rw [← hsame.lastChunk] at hlast
    refine ⟨_, extractBodyStep_ok_within hlast (hsame.inExtent himg), { hsame with cur := ?_, chunk := ?_, bus := ?_ }⟩
    · simp [hsame.cur]
    · simp [hsame.chunk]
    · simp_all [State.busPlaces, Access.place, hsame.cur]

/-- A run step leads from the same point to the same point, whatever the bytes (R138, R145). -/
theorem runStep_samePath {s s' t : State} (hsame : SamePath s s') (h : runStep s = .next t) :
    ∃ t', runStep s' = .next t' ∧ SamePath t t' := by
  refine runStep_follows hsame (fun t => copyByte_samePath hsame) (fun d t => embedBodyStep_samePath hsame)
    (fun d t => extractBodyStep_samePath hsame) (fun d => ?_) h
  rw [completeRun_eq_respond, completeRun_eq_respond]
  exact { hsame with phase := rfl, rsp := by simp [hsame.cnt] }

/-- A reset edge leads from the same point to the same point (R170, R171). -/
theorem resetEdge_samePath {s s' : State} (hsame : SamePath s s') : SamePath (resetEdge s) (resetEdge s') := by
  rw [resetEdge_eq, resetEdge_eq]
  exact ⟨rfl, rfl, rfl, rfl, rfl, rfl, rfl, rfl, rfl, hsame.extents, hsame.bus⟩

/-- A clock edge of a running engine, a run step or a reset, leads from the same point to the same point (R135, R145). -/
theorem clockEdge_samePath {s s' t : State} (hsame : SamePath s s') (hpins : s'.pins = s.pins) (hphase : s.phase = .run)
    (h : clockEdge s = .next t) : ∃ t', clockEdge s' = .next t' ∧ SamePath t t' := by
  cases hrst : s.pins.rst with
  | true =>
    rw [clockEdge_reset hrst] at h
    cases h
    exact ⟨_, clockEdge_reset (by rw [hpins, hrst]), resetEdge_samePath hsame⟩
  | false =>
    rw [clockEdge_run hrst hphase] at h
    rw [clockEdge_run (by rw [hpins, hrst]) (hsame.phase.trans hphase)]
    exact runStep_samePath hsame h

/-- Settles O42: with other bytes, `SHR`, `ACC` and draws the engine stands at the same point of its run. -/
theorem pathOfARunDependsOnNoByte : Obligations.PathOfARunDependsOnNoByte := by
  intro s t rest img sym out shr acc draws hedge hphase h
  have hsame : SamePath (s.begin rest)
      (State.begin { s with img := img, sym := sym, out := out, shr := shr, acc := acc, draws := draws } rest) :=
    ⟨rfl, rfl, rfl, rfl, rfl, rfl, rfl, rfl, rfl, rfl, rfl⟩
  rw [step_of_edgeNext hedge] at h
  obtain ⟨t', ht', hpath⟩ := clockEdge_samePath hsame rfl hphase h
  exact ⟨t', (step_of_edgeNext (by exact hedge)).trans ht', hpath.phase, hpath.cur, hpath.sidx, hpath.chunk, hpath.rsp,
    hpath.bus⟩

/-! ## The command port of an engine that is not ready (`44_sequencing.md` rule R141) -/

/-- The edge at which the host does not take the response changes nothing (R140, R142). -/
theorem clockEdge_resp_waits {s : State} (hr : s.pins.rst = false) (hp : s.phase = .resp) (hy : s.pins.rspReady = false) :
    clockEdge s = .next s := by
  simp [clockEdge, rspTaken_of_rst_low, hr, hp, hy]

/-- The engine is ready exactly in `IDLE` with `rst` low (R20, R141). -/
theorem cmdReady_iff {s : State} : cmdReady s = true ↔ s.phase = .idle ∧ s.pins.rst = false := by
  simp [cmdReady]

/-- The state with `cmd_valid` and `cmd_data` driven to these levels (R141). -/
def State.withCommandPort (valid : Bool) (cmd : Cmd) (s : State) : State :=
  { s with pins := { s.pins with cmdValid := valid, cmdData := cmd } }

section
variable (valid : Bool) (cmd : Cmd)

/-- The lines of the command port move an engine to no other point of its run. -/
theorem samePath_withCommandPort (s : State) : SamePath s (s.withCommandPort valid cmd) :=
  ⟨rfl, rfl, rfl, rfl, rfl, rfl, rfl, rfl, rfl, rfl, rfl⟩

/-- A read draws the same byte whatever the command port carries. -/
theorem draw_withCommandPort (s : State) (sp : Space) (a : Addr) :
    (s.withCommandPort valid cmd).draw sp a = ((s.draw sp a).1, (s.draw sp a).2.withCommandPort valid cmd) := by
  have hb : (s.withCommandPort valid cmd).byteAt sp a.toNat = s.byteAt sp a.toNat := by cases sp <;> rfl
  unfold State.draw
  rw [hb]
  cases s.byteAt sp a.toNat <;> rfl

/-- Advancing the chunk does not look at the command port. -/
theorem advanceChunk_withCommandPort (d : Degree) (s : State) :
    advanceChunk d (s.withCommandPort valid cmd) = (advanceChunk d s).withCommandPort valid cmd := by
  rw [advanceChunk, (samePath_withCommandPort valid cmd s).lastChunk, advanceChunk]
  split <;> rfl

/-- A header or tail step of EMBED does not look at the command port. -/
theorem copyByte_withCommandPort {s t : State} (h : copyByte s = .ok t) :
    copyByte (s.withCommandPort valid cmd) = .ok (t.withCommandPort valid cmd) := by
  obtain ⟨himg, hout, rfl⟩ := copyByte_cases h
  rw [copyByte_ok (by exact himg) (by exact hout), draw_withCommandPort]
  rfl

/-- Fetching the symbol of a body step does not look at the command port. -/
theorem embedSymbol_withCommandPort {s s1 : State} {sv : Byte} (h : embedSymbol s = .ok (sv, s1)) :
    embedSymbol (s.withCommandPort valid cmd) = .ok (sv, s1.withCommandPort valid cmd) := by
  obtain ⟨hfirst, hsym, hr⟩ | ⟨hlater, hr⟩ := embedSymbol_cases h <;> cases hr
  · rw [embedSymbol, if_pos (by exact hfirst), memRead_ok (by exact hsym), draw_withCommandPort]
    rfl
  · rw [embedSymbol, if_neg (by exact hlater)]
    rfl

/-- A body step of EMBED does not look at the command port. -/
theorem embedBodyStep_withCommandPort {d : Degree} {s t : State} (h : embedBodyStep d s = .ok t) :
    embedBodyStep d (s.withCommandPort valid cmd) = .ok (t.withCommandPort valid cmd) := by
  obtain ⟨sv, s1, hsym, himg, hout, rfl⟩ := embedBodyStep_cases h
  rw [embedBodyStep_ok (embedSymbol_withCommandPort valid cmd hsym) (by exact himg) (by exact hout), draw_withCommandPort,
    ← advanceChunk_withCommandPort]
  rfl

/-- A body step of EXTRACT does not look at the command port. -/
theorem extractBodyStep_withCommandPort {d : Degree} {s t : State} (h : extractBodyStep d s = .ok t) :
    extractBodyStep d (s.withCommandPort valid cmd) = .ok (t.withCommandPort valid cmd) := by
  obtain ⟨himg, ⟨hlast, hsym, rfl⟩ | ⟨hlast, rfl⟩⟩ := extractBodyStep_cases h
  · rw [extractBodyStep_ok_last (by exact hlast) (by exact himg) (by exact hsym), draw_withCommandPort]
    rfl
  · rw [extractBodyStep_ok_within (by exact hlast) (by exact himg), draw_withCommandPort]
    rfl

/-- A run step does not look at the command port (R53, R138). -/
theorem runStep_withCommandPort {s t : State} (h : runStep s = .next t) :
    runStep (s.withCommandPort valid cmd) = .next (t.withCommandPort valid cmd) := by
  obtain ⟨t', ht', rfl⟩ := runStep_follows (R := fun t t' => t' = t.withCommandPort valid cmd)
    (samePath_withCommandPort valid cmd s)
    (fun t hok => ⟨_, copyByte_withCommandPort valid cmd hok, rfl⟩)
    (fun d t hok => ⟨_, embedBodyStep_withCommandPort valid cmd hok, rfl⟩)
    (fun d t hok => ⟨_, extractBodyStep_withCommandPort valid cmd hok, rfl⟩) (fun d => rfl) h
  exact ht'

/-- A reset edge does not look at the command port (R170). -/
theorem resetEdge_withCommandPort (s : State) :
    resetEdge (s.withCommandPort valid cmd) = (resetEdge s).withCommandPort valid cmd := by
  rw [resetEdge_eq, resetEdge_eq]
  rfl

/-- A clock edge of an engine that is not ready does not look at the command port (R53, R141). -/
theorem clockEdge_withCommandPort {s t : State} (hready : cmdReady s = false) (h : clockEdge s = .next t) :
    clockEdge (s.withCommandPort valid cmd) = .next (t.withCommandPort valid cmd) := by
  have hbusy (hidle : s.phase = .idle) (hrst : s.pins.rst = false) : False := by
    simp [cmdReady_iff.mpr ⟨hidle, hrst⟩] at hready
  obtain ⟨hrst, rfl⟩ | ⟨hrst, hidle, -, -⟩ | ⟨hrst, hphase, hrun⟩ | ⟨hrst, hphase, htake, rfl⟩ |
    ⟨hrst, rfl, ⟨hidle, -⟩ | ⟨hphase, hwait⟩⟩ := clockEdge_cases h
  · rw [clockEdge_reset (by exact hrst), resetEdge_withCommandPort]
  · exact (hbusy hidle hrst).elim
  · rw [clockEdge_run (by exact hrst) (by exact hphase), runStep_withCommandPort valid cmd hrun]
  · exact clockEdge_handshake (by exact hrst) (by exact hphase) (by exact htake)
  · exact (hbusy hidle hrst).elim
  · exact clockEdge_resp_waits (by exact hrst) (by exact hphase) (by exact hwait)

end

/-- Settles O38: every clock edge but the accept step commutes with driving the command port. -/
theorem commandPortIsNotSeenWhileBusy : Obligations.CommandPortIsNotSeenWhileBusy := by
  intro s t rest valid cmd hedge hready h
  have hedge' : EdgeNext (s.withCommandPort valid cmd) rest := hedge
  rw [step_of_edgeNext hedge] at h
  exact (step_of_edgeNext hedge').trans (clockEdge_withCommandPort valid cmd (by exact hready) h)

/-! ## Where a step stops (`44_sequencing.md` rules R135, R138, `20_memory.md` rules R52, R55) -/

/-- The run invariant keeps the working registers in the ranges of U15 at the degree in flight (R12 to R14). -/
theorem runInv_ranges {d : Degree} {s : State} (hinv : RunInv s) (hdeg : Degree.ofField s.deg = some d) :
    s.chunk.toNat < d.steps ∧ s.sidx ≤ s.cnt ∧ s.cur ≤ s.len := by
  obtain ⟨hsidx, hcur⟩ := runInv_bounds hinv
  refine ⟨?_, hsidx, hcur⟩
  have hfirst (hchunk : s.chunk = 0) : s.chunk.toNat < d.steps := by simpa [hchunk] using steps_pos d
  obtain ⟨d', hdeg', -, -, -, ⟨-, ⟨-, -, hchunk⟩ | ⟨-, hchunk, -⟩ | ⟨-, hchunk, -, -⟩⟩ | ⟨-, -, hchunk, -, -⟩⟩ := hinv <;>
    obtain rfl : d' = d := Option.some.inj (hdeg'.symm.trans hdeg)
  · exact hfirst hchunk
  · exact hchunk
  · exact hfirst hchunk
  · exact hchunk

/-- A run step of the invariant answers where the command's storage is provided (R55, R138). -/
theorem runStep_next_of_storage {d : Degree} {s : State} (hinv : RunInv s) (hdeg : Degree.ofField s.deg = some d)
    (hstorage : (s.op = 0x3 ∧ EmbedStorage s s.len s.cnt) ∨ (s.op = 0x4 ∧ ExtractStorage s d s.cnt)) :
    ∃ t, runStep s = .next t := by
  obtain ⟨hchunk, hsidx, hcur⟩ := runInv_ranges hinv hdeg
  obtain ⟨hop, hstorage⟩ | ⟨hop, hstorage⟩ := hstorage
  · by_cases hmore : s.cur < s.len
    · obtain ⟨t, ht, -⟩ := runStep_embed_byte hinv hdeg hop hstorage hmore
      exact ⟨t, ht⟩
    · exact ⟨_, runStep_embed_at_len hinv hdeg hop (by bv_omega)⟩
  · obtain ⟨-, -, hpos⟩ := runInv_at_degree hinv hdeg
    by_cases hmore : s.sidx < s.cnt
    · obtain ⟨t, ht, -⟩ := runStep_extract_byte hinv hdeg hop hstorage ((sidx_lt_cnt_iff (hpos hop)).mp hmore)
      exact ⟨t, ht⟩
    · exact ⟨_, by rw [runStep_extract hdeg hchunk hsidx hcur hop, extractRunStep_completion (by bv_omega),
        outcomeOf_next_iff]⟩

/-- Settles O52: with its storage provided the run step answers, with the run going on or complete. -/
theorem runStepIsAlwaysEnabled : Obligations.RunStepIsAlwaysEnabled := by
  intro s rest d ⟨_, _, _, _, hrun, _⟩ hedge hphase hrst hdeg hstorage
  obtain ⟨hinv, -⟩ := hrun hphase
  obtain ⟨t, ht⟩ := runStep_next_of_storage (s := s.begin rest) hinv hdeg hstorage
  refine ⟨t, by rw [step_of_edgeNext hedge, clockEdge_run (by exact hrst) (by exact hphase), ht], ?_⟩
  obtain hbyte | ⟨-, -, d', rfl⟩ := runStep_handlesOneByte_or_completes ht
  · exact .inl (hbyte.phase.trans hphase)
  · exact .inr rfl

/-- What a sequence of accesses may stop with: an access beyond the storage (R55). -/
def StopsBeyondStorage {α : Type} (x : Except Refusal α) : Prop := ∀ r, x = .error r → ∃ sp, r = .outsideExtent sp

/-- A sequence of accesses that has succeeded does not stop. -/
theorem stopsBeyondStorage_ok {α : Type} (a : α) : StopsBeyondStorage (.ok a) := nofun

/-- Accesses in a row stop as the first or as the rest does. -/
theorem stopsBeyondStorage_bind {α β : Type} {x : Except Refusal α} {f : α → Except Refusal β} (hx : StopsBeyondStorage x)
    (hf : ∀ a, StopsBeyondStorage (f a)) : StopsBeyondStorage (x >>= f) := by
  cases x with
  | error r => intro r' hr; cases hr; exact hx r rfl
  | ok a => exact hf a

/-- `MemRead` is refused only beyond the storage. -/
theorem memRead_stopsBeyondStorage (sp : Space) (a : Addr) (s : State) : StopsBeyondStorage (memRead sp a s) := by
  intro r hr
  cases hx : s.inExtent sp a with
  | false => rw [memRead_refused hx] at hr; cases hr; exact ⟨sp, rfl⟩
  | true => rw [memRead_ok hx] at hr; cases hr

/-- `MemWrite` is refused only beyond the storage. -/
theorem memWrite_stopsBeyondStorage (sp : Space) (a : Addr) (v : Byte) (s : State) :
    StopsBeyondStorage (memWrite sp a v s) := by
  intro r hr
  cases hx : s.inExtent sp a with
  | false => rw [memWrite_refused hx] at hr; cases hr; exact ⟨sp, rfl⟩
  | true => rw [memWrite_ok hx] at hr; cases hr

/-- A header or tail step of EMBED (R103, R105). -/
theorem copyByte_stopsBeyondStorage (s : State) : StopsBeyondStorage (copyByte s) :=
  stopsBeyondStorage_bind (memRead_stopsBeyondStorage _ _ _) fun _ =>
    stopsBeyondStorage_bind (memWrite_stopsBeyondStorage _ _ _ _) fun _ => stopsBeyondStorage_ok _

/-- Fetching the symbol of a body step (R104). -/
theorem embedSymbol_stopsBeyondStorage (s : State) : StopsBeyondStorage (embedSymbol s) := by
  unfold embedSymbol
  split
  · exact memRead_stopsBeyondStorage _ _ _
  · exact stopsBeyondStorage_ok _

/-- A body step of EMBED (R104). -/
theorem embedBodyStep_stopsBeyondStorage (d : Degree) (s : State) : StopsBeyondStorage (embedBodyStep d s) :=
  stopsBeyondStorage_bind (embedSymbol_stopsBeyondStorage s) fun _ =>
    stopsBeyondStorage_bind (memRead_stopsBeyondStorage _ _ _) fun _ =>
      stopsBeyondStorage_bind (memWrite_stopsBeyondStorage _ _ _ _) fun _ => stopsBeyondStorage_ok _

/-- A body step of EXTRACT (R123). -/
theorem extractBodyStep_stopsBeyondStorage (d : Degree) (s : State) : StopsBeyondStorage (extractBodyStep d s) := by
  refine stopsBeyondStorage_bind (memRead_stopsBeyondStorage _ _ _) fun _ => ?_
  dsimp only
  split
  · exact stopsBeyondStorage_bind (memWrite_stopsBeyondStorage _ _ _ _) fun _ => stopsBeyondStorage_ok _
  · exact stopsBeyondStorage_ok _

/-- EMBED's run step (R138). -/
theorem embedRunStep_stopsBeyondStorage (d : Degree) (s : State) : StopsBeyondStorage (embedRunStep d s) := by
  unfold embedRunStep
  split
  · exact copyByte_stopsBeyondStorage s
  split
  · exact embedBodyStep_stopsBeyondStorage d s
  split
  · exact copyByte_stopsBeyondStorage s
  · exact stopsBeyondStorage_ok _

/-- EXTRACT's run step (R138). -/
theorem extractRunStep_stopsBeyondStorage (d : Degree) (s : State) : StopsBeyondStorage (extractRunStep d s) := by
  unfold extractRunStep
  split
  · exact extractBodyStep_stopsBeyondStorage d s
  · exact stopsBeyondStorage_ok _

/-- The step is no fault, and only the host's window or the extents refuse it (R52, R55). -/
def StopsByTheHostOnly (o : Host.Outcome State Fault Refusal) : Prop :=
  (∀ f, o ≠ .fault f) ∧ ∀ r, o = .refused r → (∃ sp, r = .hostInWindow sp) ∨ ∃ sp, r = .outsideExtent sp

/-- A next state is no stop. -/
theorem stopsByTheHostOnly_next (t : State) : StopsByTheHostOnly (.next t) := ⟨nofun, nofun⟩

/-- The ownership window refuses a move of the host (R52). -/
theorem stopsByTheHostOnly_hostInWindow (sp : Space) : StopsByTheHostOnly (.refused (.hostInWindow sp)) :=
  ⟨nofun, fun _ hr => by cases hr; exact .inl ⟨sp, rfl⟩⟩

/-- The extents refuse an access (R55). -/
theorem stopsByTheHostOnly_outsideExtent (sp : Space) : StopsByTheHostOnly (.refused (.outsideExtent sp)) :=
  ⟨nofun, fun _ hr => by cases hr; exact .inr ⟨sp, rfl⟩⟩

/-- Accesses that stop beyond the storage make a step that the extents alone refuse. -/
theorem stopsByTheHostOnly_outcomeOf {x : Except Refusal State} (hx : StopsBeyondStorage x) :
    StopsByTheHostOnly (outcomeOf x) := by
  cases x with
  | ok t => exact stopsByTheHostOnly_next t
  | error r =>
    obtain ⟨sp, rfl⟩ := hx r rfl
    exact stopsByTheHostOnly_outsideExtent sp

/-- A run step from the run invariant has a meaning; only the extents refuse it (R138, U15). -/
theorem runStep_stopsByTheHostOnly {s : State} (hinv : RunInv s) : StopsByTheHostOnly (runStep s) := by
  have ⟨d, hdeg, _, _, _, hop⟩ := hinv
  obtain ⟨hchunk, hsidx, hcur⟩ := runInv_ranges hinv hdeg
  obtain ⟨hop, -⟩ | ⟨hop, -⟩ := hop
  · rw [runStep_embed hdeg hchunk hsidx hcur hop]
    exact stopsByTheHostOnly_outcomeOf (embedRunStep_stopsBeyondStorage d s)
  · rw [runStep_extract hdeg hchunk hsidx hcur hop]
    exact stopsByTheHostOnly_outcomeOf (extractRunStep_stopsBeyondStorage d s)

/-- A clock edge is a run step or answers a next state (R135, R136, R140, R170). -/
theorem clockEdge_run_or_next (s : State) : (s.phase = .run ∧ clockEdge s = runStep s) ∨ ∃ t, clockEdge s = .next t := by
  unfold clockEdge
  split
  · exact .inr ⟨_, rfl⟩
  · split
    · split
      · exact .inr (acceptStep_next _ _)
      · exact .inr ⟨_, rfl⟩
    · exact .inl ⟨‹_›, rfl⟩
    · split <;> exact .inr ⟨_, rfl⟩

/-- A clock edge from the invariant (R135). -/
theorem clockEdge_stopsByTheHostOnly {s : State} (hinv : Inv s) : StopsByTheHostOnly (clockEdge s) := by
  obtain ⟨hphase, h⟩ | ⟨t, h⟩ := clockEdge_run_or_next s <;> rw [h]
  · obtain ⟨-, -, -, -, hrun, -⟩ := hinv
    exact runStep_stopsByTheHostOnly (hrun hphase).1
  · exact stopsByTheHostOnly_next t

/-- A fill of the host (R52, R55, R144). -/
theorem hostFill_stopsByTheHostOnly (sp : Space) (a : Addr) (v : Byte) (s : State) :
    StopsByTheHostOnly (hostFill sp a v s) := by
  unfold hostFill
  split
  · exact stopsByTheHostOnly_hostInWindow sp
  split
  · exact stopsByTheHostOnly_next _
  · exact stopsByTheHostOnly_outsideExtent sp

/-- A read of the host (R52, R55, R144). -/
theorem hostRead_stopsByTheHostOnly (sp : Space) (a : Addr) (s : State) : StopsByTheHostOnly (hostRead sp a s) := by
  unfold hostRead
  split
  · exact stopsByTheHostOnly_hostInWindow sp
  split
  · exact stopsByTheHostOnly_next _
  · exact stopsByTheHostOnly_outsideExtent sp

/-- Providing storage (R52, R55). -/
theorem hostProvide_stopsByTheHostOnly (sp : Space) (n : Nat) (s : State) : StopsByTheHostOnly (hostProvide sp n s) := by
  unfold hostProvide
  split
  · exact stopsByTheHostOnly_hostInWindow sp
  · exact stopsByTheHostOnly_next _

/-- A move of the host, a clock edge among them, from the invariant (R144). -/
theorem hostMove_stopsByTheHostOnly (m : HostMove) {s : State} (hinv : Inv s) : StopsByTheHostOnly (hostMove m s) := by
  cases m with
  | drive p => exact stopsByTheHostOnly_next _
  | fill sp a v => exact hostFill_stopsByTheHostOnly sp a v s
  | read sp a => exact hostRead_stopsByTheHostOnly sp a s
  | provide sp n => exact hostProvide_stopsByTheHostOnly sp n s
  | edge => exact clockEdge_stopsByTheHostOnly hinv

/-- Settles O59, by the host's next move. -/
theorem noFaultFromTheInvariant : Obligations.NoFaultFromTheInvariant := by
  intro s hinv
  change StopsByTheHostOnly (step s)
  unfold step advance
  split
  · exact clockEdge_stopsByTheHostOnly (begin_keeps_inv [] hinv)
  · exact hostMove_stopsByTheHostOnly _ (begin_keeps_inv _ hinv)

/-! ## The accept step, the handshake and the host's accesses (`44_sequencing.md` sections 1 to 3) -/

/-- The accept step of a decoded command (R137). -/
theorem acceptStep_of_decode {cmd : Cmd} {i : Instr} (h : decode cmd = .ok i) (s : State) : acceptStep cmd s = exec i s := by
  rw [acceptStep, h]

/-- Settles O35: the edge of a ready engine with a descriptor is its accept step. -/
theorem stepRunsTheDecodedCommand : Obligations.StepRunsTheDecodedCommand := by
  intro s rest i hedge hready hvalid hdec
  obtain ⟨hidle, hrst⟩ := cmdReady_iff.mp hready
  rw [step_of_edgeNext hedge, clockEdge_accept (by exact hrst) (by exact hidle) (by exact hvalid)]
  exact acceptStep_of_decode hdec _

/-- Settles O45: with `rsp_ready` the edge is the handshake, without it the edge waits. -/
theorem handshakeHandsOverTheResponse : Obligations.HandshakeHandsOverTheResponse := by
  intro s rest hedge hphase hrst
  refine ⟨by simp [rspData, rspValid, hphase, hrst], by simp [cmdReady, hphase], fun hready => ?_, fun hwait => ?_⟩
  · rw [step_of_edgeNext hedge, clockEdge_handshake (by exact hrst) (by exact hphase) (by exact hready)]
    rfl
  · rw [step_of_edgeNext hedge, clockEdge_resp_waits (by exact hrst) (by exact hphase) (by exact hwait)]

/-- A fill where the host owns the address and has storage (R52, R144). -/
theorem hostFill_ok {sp : Space} {a : Addr} {v : Byte} {s : State} (howns : engineOwns s sp a = false)
    (hstorage : s.inExtent sp a = true) :
    hostFill sp a v s = .next (s.setSpace sp (Memory.write (s.space sp) a.toNat v)) := by
  simp [hostFill, howns, hstorage]

/-- A host read of a written byte it owns (R47, R52, R144). -/
theorem hostRead_of_written {sp : Space} {a : Addr} {v : Byte} {s : State} (howns : engineOwns s sp a = false)
    (hstorage : s.inExtent sp a = true) (hwritten : s.byteAt sp a.toNat = some v) :
    hostRead sp a s = .next { s with host := { s.host with seen := s.host.seen ++ [v] } } := by
  simp [hostRead, howns, hstorage, draw_of_written hwritten]

/-- Beginning a step changes no byte of any space. -/
@[simp] theorem byteAt_begin (s : State) (rest : List HostMove) (sp : Space) (i : Nat) :
    (s.begin rest).byteAt sp i = s.byteAt sp i := by
  rw [State.byteAt, space_begin, State.byteAt]

/-- Settles O50: a fill stores its byte in one space and nothing else. -/
theorem hostFillsAByteItOwns : Obligations.HostFillsAByteItOwns := by
  intro s sp a v rest hscript howns hstorage
  refine ⟨_, ?_, rfl, ?_, fun sp' i hne => ?_⟩
  · rw [step_fill hscript, hostFill_ok (by exact howns) (by exact hstorage), space_begin]
  · rw [byteAt_setSpace_same, read_write_same]
  · rw [← space_begin s rest sp, byteAt_setSpace_write_other v _ hne, byteAt_begin]

/-- Settles O51: a read of a written byte draws nothing and records the byte. -/
theorem hostReadsTheByteLastWritten : Obligations.HostReadsTheByteLastWritten := by
  intro s sp a v rest hscript howns hstorage hwritten
  rw [step_read hscript, hostRead_of_written (by exact howns) (by exact hstorage)
    ((byteAt_begin s rest sp _).trans hwritten)]
  rfl

end Sys2Proof.Machine

/-! SUPPORT. The statements about errors (`60_exceptions.md`): the degree check every command opens with, the order of the
checks, and what an error leaves alone. -/

namespace Sys2Proof.Machine

/-! ## The degree check (`60_exceptions.md` rule R152) -/

/-- The degree field of a command: all four take a degree (R62, R152). -/
def degreeOf : Instr → DegField
  | .masks deg => deg
  | .capacity deg _ => deg
  | .embed deg _ _ => deg
  | .extract deg _ _ => deg

/-- The degree of a decoded command is the `DEG` field of its descriptor (R61, R69). -/
theorem degreeOf_of_decode {cmd : Cmd} {i : Instr} (h : decode cmd = .ok i) : degreeOf i = degField cmd := by
  obtain ⟨hrsv, hop⟩ := fields_of_decode h
  cases i with
  | masks deg => rw [decode_masks hrsv hop] at h; cases h; rfl
  | capacity deg len => rw [decode_capacity hrsv hop] at h; cases h; rfl
  | embed deg len cnt => rw [decode_embed hrsv hop] at h; cases h; rfl
  | extract deg len cnt => rw [decode_extract hrsv hop] at h; cases h; rfl

/-- CAPACITY refuses an illegal degree (R95, R152). -/
theorem exec_capacity_of_illegal {deg : DegField} (len : Len) (s : State) (hdeg : Degree.ofField deg = none) :
    exec (.capacity deg len) s = .next (raiseError .invalidDegree s) := by
  simp only [exec, execCapacity, hdeg]

/-- Every command answers an illegal degree by the error entry, before it looks at another operand (R152). -/
theorem exec_of_illegal_degree {i : Instr} (s : State) (hdeg : Degree.ofField (degreeOf i) = none) :
    exec i s = .next { s with rsp := 0x0000000001, phase := .resp } := by
  rw [← raiseError_invalidDegree]
  cases i with
  | masks deg => exact exec_masks_of_illegal s hdeg
  | capacity deg len => exact exec_capacity_of_illegal len s hdeg
  | embed deg len cnt => exact exec_embed_of_illegal len cnt s hdeg
  | extract deg len cnt => exact exec_extract_of_illegal len cnt s hdeg

/-- Settles O11: the degree check comes first in all four commands. -/
theorem illegalDegreeOpensEveryCommand : Obligations.IllegalDegreeOpensEveryCommand := by
  intro s deg len cnt h1 h2 h4 h8
  have hdeg : Degree.ofField deg = none := ofField_eq_none h1 h2 h4 h8
  exact ⟨exec_of_illegal_degree (i := .masks deg) s hdeg, exec_of_illegal_degree (i := .capacity deg len) s hdeg,
    exec_of_illegal_degree (i := .embed deg len cnt) s hdeg, exec_of_illegal_degree (i := .extract deg len cnt) s hdeg⟩

/-! ## The order of the checks (`60_exceptions.md` rule R155) -/

/-- A descriptor with `RSV` zero and the opcode of a command decodes to a command (R65, R69). -/
theorem decode_ok_of_legal {cmd : Cmd} (h : ¬ (rsvField cmd ≠ 0 ∨ ReservedOpcode (opField cmd))) : ∃ i, decode cmd = .ok i := by
  obtain ⟨i, hdec, -⟩ | ⟨r, -, hillegal⟩ := decode_cases cmd
  · exact ⟨i, hdec⟩
  · exact absurd hillegal h

/-- Settles O53: the decoder refuses first, then the degree check every command opens with, then the capacity check. -/
theorem errorsComeInTheStatedPriority : Obligations.ErrorsComeInTheStatedPriority := by
  refine fun cmd s => ⟨fun hillegal => ?_, fun hlegal hdeg => ?_, fun d hrsv hdeg hadm => ?_⟩
  · obtain ⟨hrefused, hanswer⟩ := illegalDescriptorIsAnsweredInvalidCommand cmd
    exact hanswer (hrefused.mpr hillegal) s
  · obtain ⟨i, hdec⟩ := decode_ok_of_legal hlegal
    rw [acceptStep_of_decode hdec, exec_of_illegal_degree s (by rw [degreeOf_of_decode hdec, hdeg])]
  · have hfull : ¬ admissible d (lenField cmd) (cntField cmd) = true := by simp [hadm]
    refine ⟨fun hop => ?_, fun hop => ?_⟩
    · rw [acceptStep_of_decode (decode_embed hrsv hop), field_of_ofField hdeg, exec_embed_of_not_admissible s hfull,
        raiseError_payloadTooLarge]
    · rw [acceptStep_of_decode (decode_extract hrsv hop), field_of_ofField hdeg, exec_extract_of_not_admissible s hfull,
        raiseError_readTooLarge]

/-! ## What an error does (`60_exceptions.md` rule R156) -/

/-- An accept step that ends in `RESP` with a code other than 0 is the error entry (R137, R156). -/
theorem acceptStep_error {cmd : Cmd} {s t : State} (h : acceptStep cmd s = .next t) (hphase : t.phase = .resp)
    (hcode : codeField t.rsp ≠ 0) : ∃ code, t = raiseError code s := by
  obtain ⟨code, -, rfl⟩ | ⟨none, value, rfl⟩ | ⟨d, len, cnt, -, rfl⟩ | ⟨d, len, cnt, -, rfl⟩ := acceptStep_cases h
  · exact ⟨code, rfl⟩
  · exact absurd (codeField_responseWord .ok none value) hcode
  · cases hphase
  · cases hphase

/-- Settles O54: an error is the error entry, whose response has the code and nothing else. -/
theorem errorHasNoEffectButItsResponse : Obligations.ErrorHasNoEffectButItsResponse := by
  intro cmd s t h hphase hcode
  obtain ⟨code, rfl⟩ := acceptStep_error h hphase hcode
  obtain ⟨hzero, hnumber, hempty⟩ := responseFormed_no_value code
  obtain ⟨hvalue, hnone⟩ := hempty hcode
  exact ⟨rfl, hvalue, hnone, hzero, hnumber⟩

end Sys2Proof.Machine

/-! SUPPORT. The statements about reset and termination (`70_reset_and_hazards.md`): what a clock edge in reset does, the count of
clock edges after which a run has its response, and the answer to every descriptor. -/

namespace Sys2Proof.Machine

/-! ## Reset (`70_reset_and_hazards.md` section 1) -/

/-- Settles O57: in `IDLE` with every register 0 there is no run to speak of, and the window is closed. -/
theorem resetMeetsTheInvariant : Obligations.ResetMeetsTheInvariant :=
  inv_of_not_run ⟨rfl, rfl, rfl⟩ responseFormed_zero (BitVec.le_refl _) (BitVec.le_refl _) nofun fun _ => rfl

/-- While `rst` is 1 the command port is not ready (R141, R170). -/
theorem cmdReady_of_rst_high {s : State} (hrst : s.pins.rst = true) : cmdReady s = false := by simp [cmdReady, hrst]

/-- Outside `RESP` no response is valid (R142). -/
theorem rspValid_of_not_resp {s : State} (hphase : s.phase ≠ .resp) : rspValid s = false := by simp [rspValid, hphase]

/-- The host takes the response exactly with both lines of the response port at 1 (R142). -/
theorem rspTaken_iff {s : State} : rspTaken s = true ↔ rspValid s = true ∧ s.pins.rspReady = true := by simp [rspTaken]

/-- Settles O55: the edge is the reset edge, which hands over a taken response and resets the registers. -/
theorem resetTakesTheResetState : Obligations.ResetTakesTheResetState := by
  intro s rest hedge hrst
  refine ⟨cmdReady_of_rst_high hrst, rspValid_of_not_resp, resetEdge (s.begin rest), ?_, ?_, ?_, false, ?_⟩
  · rw [step_of_edgeNext hedge, clockEdge_reset (by exact hrst)]
  · rw [resetEdge_eq]
    exact cmdReady_of_rst_high hrst
  · rw [resetEdge_eq]
    exact rspValid_of_not_resp nofun
  · rw [resetEdge_eq, rspTaken_begin, if_congr rspTaken_iff rfl rfl]
    rfl

/-! ## A run has its response after finitely many clock edges (`70_reset_and_hazards.md` section 4) -/

/-- After `n` steps the engine answers with a response of legal form, and until then it is in `RUN` (R183). -/
def AnswersIn (n : Nat) (s : State) : Prop :=
  ∃ t, stepN n s = .next t ∧ t.phase = .resp ∧ ResponseFormed t.rsp ∧
    ∀ m u, 1 ≤ m → m < n → stepN m s = .next u → u.phase = .run

/-- A step that ends in `RESP` is an answer. -/
theorem answersIn_one {s t : State} (h : step s = .next t) (hphase : t.phase = .resp) (hrsp : ResponseFormed t.rsp) :
    AnswersIn 1 s :=
  ⟨t, stepN_succ 0 h, hphase, hrsp, fun _ _ hpos hlt => absurd hpos (by omega)⟩

/-- A step that ends in `RUN` puts the answer off by one. -/
theorem AnswersIn.of_step {n : Nat} {s t : State} (h : step s = .next t) (hphase : t.phase = .run) (ht : AnswersIn n t) :
    AnswersIn (n + 1) s := by
  obtain ⟨u, hu, hresp, hrsp, hrun⟩ := ht
  refine ⟨u, by rw [stepN_succ n h, hu], hresp, hrsp, fun m v hpos hlt hv => ?_⟩
  obtain ⟨m, rfl⟩ := Nat.exists_eq_add_of_le' hpos
  rw [stepN_succ m h] at hv
  cases m with
  | zero => cases hv; exact hphase
  | succ m => exact hrun (m + 1) v (by omega) (by omega) hv

/-- A run that goes from each address below `e` to the next and answers at `e` has its answer one step after its addresses. -/
theorem answersIn_of_run {At : Nat → State → Prop} {e : Nat} (hphase : ∀ i s, At i s → s.phase = .run)
    (hnext : ∀ i s, i < e → At i s → ∃ t, step s = .next t ∧ At (i + 1) t)
    (hend : ∀ s, At e s → AnswersIn 1 s) (m : Nat) : ∀ i s, i + m = e → At i s → AnswersIn (m + 1) s := by
  induction m with
  | zero =>
    intro i s hi hs
    obtain rfl : i = e := hi
    exact hend s hs
  | succ m ih =>
    intro i s hi hs
    obtain ⟨t, ht, hat⟩ := hnext i s (by omega) hs
    exact (ih (i + 1) t (by omega) hat).of_step ht (hphase _ t hat)

/-- A run step that completes the run is an answer (R106, R124). -/
theorem RunAt.answersIn_one {s0 s : State} {op : BitVec 4} {d : Degree} {len cnt : Len} {i : Nat}
    (h : RunAt s0 op d len cnt i s) (hrun : runStep (s.begin []) = .next (completeRun d (s.begin []))) : AnswersIn 1 s :=
  Machine.answersIn_one (h.step_eq.trans hrun) rfl (responseFormed_ok _ _)

/-- A valid EMBED with its storage is answered after the accept step, a step for each address of the image, and the completion
(R113, R183). -/
theorem embed_answersIn {s : State} {d : Degree} {len cnt : Len} (h : Presents s (encode (.embed d.field len cnt)))
    (hadm : admissible d len cnt = true) (hstorage : EmbedStorage s len cnt) : AnswersIn (len.toNat + 2) s := by
  obtain ⟨t, ht, -, hat⟩ := step_starts_embed h hadm
  refine AnswersIn.of_step ht hat.phase (answersIn_of_run (fun _ _ hu => hu.phase) (fun i u hi hu => ?_) (fun u hu => ?_)
    len.toNat 0 t (Nat.zero_add _) hat)
  · obtain ⟨v, hv, -, hnext⟩ := step_embed_byte hstorage hi hu
    exact ⟨v, hv, hnext⟩
  · exact hu.answersIn_one (runStep_embed_at_len (s := u.begin []) hu.inv hu.deg hu.op
      (BitVec.eq_of_toNat_eq (by rw [begin_cur, begin_len, hu.cur, hu.len])))

/-- A valid EXTRACT with its storage is answered after the accept step, a step for each carrier byte, and the completion
(R131, R183). -/
theorem extract_answersIn {s : State} {d : Degree} {len cnt : Len} (h : Presents s (encode (.extract d.field len cnt)))
    (hadm : admissible d len cnt = true) (hstorage : ExtractStorage s d cnt) : AnswersIn (cnt.toNat * d.steps + 2) s := by
  obtain ⟨t, ht, -, hat⟩ := step_starts_extract h hadm
  refine AnswersIn.of_step ht hat.phase (answersIn_of_run (fun _ _ hu => hu.phase) (fun i u hi hu => ?_) (fun u hu => ?_)
    (cnt.toNat * d.steps) Config.headerSize t rfl hat)
  · obtain ⟨v, hv, -, hnext⟩ := step_extract_byte hadm hstorage hi hu
    exact ⟨v, hv, hnext⟩
  · exact hu.answersIn_one (runStep_extract_at_end (s := u.begin []) hu.inv hu.deg hu.op
      (by rw [begin_cur, begin_cnt, hu.cur, hu.cnt]))

/-! ## Every descriptor is answered (`70_reset_and_hazards.md` rules R183, R184) -/

/-- Whole storage is storage for any count of bytes that 32 bits can address (R40, R55). -/
theorem provides_of_whole {s : State} (h : s.host.extents = .whole) (sp : Space) {n : Nat} (hn : n ≤ 2 ^ 32) :
    Provides s sp n := by
  rw [Provides, h]
  cases sp <;> exact hn

/-- Whole storage is enough for any EMBED (R173). -/
theorem embedStorage_of_whole {s : State} (h : s.host.extents = .whole) (len cnt : Len) : EmbedStorage s len cnt :=
  ⟨provides_of_whole h .img len.isLt.le, provides_of_whole h .sym cnt.isLt.le, provides_of_whole h .out len.isLt.le⟩

/-- Whole storage is enough for any EXTRACT whose carriers lie inside an image (R94, R174). -/
theorem extractStorage_of_whole {s : State} {d : Degree} {len cnt : Len} (h : s.host.extents = .whole)
    (hadm : admissible d len cnt = true) : ExtractStorage s d cnt :=
  ⟨provides_of_whole h .img ((carriers_lt_len hadm).trans len.isLt).le, provides_of_whole h .sym cnt.isLt.le⟩

/-- An EMBED uses every field, so its descriptor is the only one that decodes to it (R66, R69). -/
theorem eq_encode_of_decode_embed {cmd : Cmd} {deg : DegField} {len cnt : Len} (h : decode cmd = .ok (.embed deg len cnt)) :
    cmd = encode (.embed deg len cnt) := by
  obtain ⟨hrsv, hop⟩ := fields_of_decode h
  rw [decode_embed hrsv hop] at h
  cases h
  rw [encode, ← hop]
  exact eq_descriptor_of_fields hrsv

/-- An EXTRACT uses every field, so its descriptor is the only one that decodes to it (R66, R69). -/
theorem eq_encode_of_decode_extract {cmd : Cmd} {deg : DegField} {len cnt : Len}
    (h : decode cmd = .ok (.extract deg len cnt)) : cmd = encode (.extract deg len cnt) := by
  obtain ⟨hrsv, hop⟩ := fields_of_decode h
  rw [decode_extract hrsv hop] at h
  cases h
  rw [encode, ← hop]
  exact eq_descriptor_of_fields hrsv

/-- An accept step that ends in `RESP` leaves a response of legal form (R67, R137). -/
theorem responseFormed_of_acceptStep {cmd : Cmd} {s t : State} (h : acceptStep cmd s = .next t) (hphase : t.phase = .resp) :
    ResponseFormed t.rsp := by
  obtain ⟨code, -, rfl⟩ | ⟨none, value, rfl⟩ | ⟨d, len, cnt, -, rfl⟩ | ⟨d, len, cnt, -, rfl⟩ := acceptStep_cases h
  · exact responseFormed_no_value code
  · exact responseFormed_ok none value
  · cases hphase
  · cases hphase

/-- A descriptor that starts a run is answered when the run ends, an EXTRACT's before the cursor comes to `LEN` (R94, R183). -/
theorem answersIn_of_startsRun {s : State} {cmd : Cmd} (h : Presents s cmd) (hwhole : s.host.extents = .whole)
    (hstart : StartsRun cmd) : ∃ n, n ≤ (lenField cmd).toNat + 1 ∧ AnswersIn (n + 1) s := by
  obtain ⟨d, len, cnt, hadm, hdec | hdec⟩ := hstart
  · obtain rfl := eq_encode_of_decode_embed hdec
    refine ⟨len.toNat + 1, by rw [encode, lenField_descriptor], ?_⟩
    exact embed_answersIn h hadm (embedStorage_of_whole hwhole len cnt)
  · obtain rfl := eq_encode_of_decode_extract hdec
    have hroom := carriers_lt_len hadm
    refine ⟨cnt.toNat * d.steps + 1, by rw [encode, lenField_descriptor]; omega, ?_⟩
    exact extract_answersIn h hadm (extractStorage_of_whole hwhole hadm)

/-- Settles O60: the accept step answers, or it starts a run that does. -/
theorem everyDescriptorIsAnswered : Obligations.EveryDescriptorIsAnswered := by
  intro s cmd hpresents hwhole
  obtain ⟨n, hn, t, hanswer⟩ : ∃ n, n ≤ (lenField cmd).toNat + 1 ∧ AnswersIn (n + 1) s := by
    obtain ⟨t, haccept⟩ := acceptStep_next cmd (s.begin [])
    obtain hresp | hstart := acceptStep_phase_resp_or_startsRun haccept
    · exact ⟨0, Nat.zero_le _, answersIn_one ((step_of_presents hpresents).trans haccept) hresp
        (responseFormed_of_acceptStep haccept hresp)⟩
    · exact answersIn_of_startsRun hpresents hwhole hstart
  exact ⟨n + 1, t, by omega, by omega, hanswer⟩

end Sys2Proof.Machine
